-- ==== Sys2Proof/Word.lean ====
section
/-! DEFINITION. The data word of the two register banks. -/

namespace Sys2Proof

/-- A data value: `DATA_W` = 32 bits (spec/00_scope.md R7), read as a two's-complement signed number
(`BitVec.toInt`; R9). -/
abbrev Word := BitVec 32

/-- A 5-bit source field, `f1` or `f2` of the format W32 (spec/30_encoding.md R71), before its
decimal-digit parse. -/
abbrev SrcField := BitVec 5

/-- The 10-bit store literal `lit` of the format W32 (spec/30_encoding.md R71). -/
abbrev Literal := BitVec 10

end Sys2Proof
end

