-- ==== Sys2Proof/Syntax.lean ====
section
/-! DEFINITION. The instruction set: one constructor per row of spec/opcode_table.json. -/

namespace Sys2Proof

/-- The six instructions (spec/30_encoding.md R76, R77). An operand is the field of the word that the
instruction uses (R72), with its width in its type, so every term of this type is an instruction. -/
inductive Instr where
  /-- STORE, spec/40_register_ops.md R105. -/
  | store (lit : Literal)
  /-- LASTH, spec/40_register_ops.md R106. -/
  | lasth
  /-- ADD, spec/41_arithmetic.md R122. -/
  | add (f1 f2 : SrcField)
  /-- SUB, spec/41_arithmetic.md R123. -/
  | sub (f1 f2 : SrcField)
  /-- MUL, spec/41_arithmetic.md R124. -/
  | mul (f1 f2 : SrcField)
  /-- DIV, spec/41_arithmetic.md R125. -/
  | div (f1 f2 : SrcField)
  deriving DecidableEq, Repr

end Sys2Proof
end

