-- ==== Sys2Proof/WellFormed.lean ====
section
/-! DEFINITION. The assembler's forms of the six instructions (spec/30_encoding.md R92) and which of them are
well formed. `Instr` itself needs no check: its fields carry their widths in their types. -/

namespace Sys2Proof

/-- A source operand as R92 writes it. -/
inductive AsmOperand where
  /-- `rN`: the number-bank entry with index `n`. -/
  | reg (n : Nat)
  /-- `f=bbbbb`: a raw 5-bit field. -/
  | raw (f : SrcField)
  deriving DecidableEq, Repr

/-- One line of assembly (spec/30_encoding.md R92). There are no pseudo-instructions (R93). -/
inductive Asm where
  | store (l : Nat)
  | lasth
  | add (a b : AsmOperand)
  | sub (a b : AsmOperand)
  | mul (a b : AsmOperand)
  | div (a b : AsmOperand)
  deriving DecidableEq, Repr

/-- "`rN`, where N is 0, 1, 10 or 11 ... Any other N is refused by the assembler" (R92). -/
def AsmOperand.wellFormed : AsmOperand → Bool
  | .reg n => n == 0 || n == 1 || n == 10 || n == 11
  | .raw _ => true

/-- The literal of `store #L` is "decimal 0..1023", and both operands of an arithmetic line are well formed (R92). -/
def Asm.wellFormed : Asm → Bool
  | .store l => decide (l ≤ 1023)
  | .lasth => true
  | .add a b => a.wellFormed && b.wellFormed
  | .sub a b => a.wellFormed && b.wellFormed
  | .mul a b => a.wellFormed && b.wellFormed
  | .div a b => a.wellFormed && b.wellFormed

end Sys2Proof
end

