-- ==== Sys2Proof/Decode.lean ====
section
/-! DEFINITION. The field split, the decoder, the encoder, the opcode table's masks, and the assembler
(spec/30_encoding.md). -/

namespace Sys2Proof

/-! ### The fields of the format W32 (spec/30_encoding.md R71) -/

/-- `opc`, bits 31..26. -/
def opcOf (w : BitVec 32) : BitVec 6 := w.extractLsb' 26 6

/-- `f1` (sourceOne), bits 25..21. -/
def f1Of (w : BitVec 32) : SrcField := w.extractLsb' 21 5

/-- `f2` (sourceTwo), bits 20..16. -/
def f2Of (w : BitVec 32) : SrcField := w.extractLsb' 16 5

/-- `lit` (storeLiteral), bits 15..6. -/
def litOf (w : BitVec 32) : Literal := w.extractLsb' 6 10

/-- `fn` (functionCode), bits 5..0. -/
def fnOf (w : BitVec 32) : BitVec 6 := w.extractLsb' 0 6

/-- The word with the given fields, `opc` in the top bits (spec/00_scope.md R8, R71). -/
def packFields (opc : BitVec 6) (f1 f2 : SrcField) (lit : Literal) (fn : BitVec 6) : BitVec 32 :=
  opc ++ f1 ++ f2 ++ lit ++ fn

/-! ### Opcodes and function codes (spec/30_encoding.md R76, R77) -/

def opcArith : BitVec 6 := 0b000000#6
def opcStore : BitVec 6 := 0b000001#6
def opcLasth : BitVec 6 := 0b100001#6
def fnAdd : BitVec 6 := 0b100000#6
def fnSub : BitVec 6 := 0b100010#6
def fnMul : BitVec 6 := 0b011000#6
def fnDiv : BitVec 6 := 0b011010#6

/-! ### The decoder -/

/-- The three classes of a 32-bit word (spec/30_encoding.md R78). -/
inductive Decoded where
  /-- Class (a): one of the six instructions. -/
  | instr (i : Instr)
  /-- Class (b): an illegal opcode, status OPC_ERR. -/
  | badOpcode
  /-- Class (c): an illegal function code, status FUNCT_ERR. -/
  | badFunction
  deriving DecidableEq, Repr

/-- Steps 2 to 6 of `Submit` (spec/30_encoding.md R90), in the source's validation order. Fields an
instruction does not use are not looked at (R72). -/
def decode (w : BitVec 32) : Decoded :=
  if opcOf w = opcStore then .instr (.store (litOf w))
  else if opcOf w = opcLasth then .instr .lasth
  else if opcOf w ≠ opcArith then .badOpcode
  else if fnOf w = fnAdd then .instr (.add (f1Of w) (f2Of w))
  else if fnOf w = fnSub then .instr (.sub (f1Of w) (f2Of w))
  else if fnOf w = fnMul then .instr (.mul (f1Of w) (f2Of w))
  else if fnOf w = fnDiv then .instr (.div (f1Of w) (f2Of w))
  else .badFunction

/-- The instruction of a word whose bits are `w`, of which the opcode table gives `nbits`; bits above `nbits`
are 0. Every instruction is one 32-bit word (spec/30_encoding.md R70), so nothing longer is one. -/
def decodeTableWord (nbits w : Nat) : Option Instr :=
  if nbits ≤ 32 then
    match decode (BitVec.ofNat 32 (w % 2 ^ nbits)) with
    | .instr i => some i
    | .badOpcode => none
    | .badFunction => none
  else none

/-! ### The encoder -/

/-- The word of an instruction, unused fields zero (spec/30_encoding.md R92). -/
def encode : Instr → BitVec 32
  | .store lit => packFields opcStore 0 0 lit 0
  | .lasth => packFields opcLasth 0 0 0 0
  | .add f1 f2 => packFields opcArith f1 f2 0 fnAdd
  | .sub f1 f2 => packFields opcArith f1 f2 0 fnSub
  | .mul f1 f2 => packFields opcArith f1 f2 0 fnMul
  | .div f1 f2 => packFields opcArith f1 f2 0 fnDiv

/-! ### The opcode table's masks (spec/30_encoding.md R79) -/

/-- A row of spec/opcode_table.json. -/
structure OpcodeRow where
  mnemonic : String
  bits : BitVec 32
  mask : BitVec 32
  deriving DecidableEq, Repr

/-- A word matches a row when its masked bits are the row's. -/
def OpcodeRow.matchesWord (r : OpcodeRow) (w : BitVec 32) : Bool := w &&& r.mask == r.bits

/-- The six match/mask pairs of spec/opcode_table.json. -/
def opcodeTable : List OpcodeRow :=
  [⟨"STORE", 0x04000000#32, 0xFC000000#32⟩,
   ⟨"LASTH", 0x84000000#32, 0xFC000000#32⟩,
   ⟨"ADD", 0x00000020#32, 0xFC00003F#32⟩,
   ⟨"SUB", 0x00000022#32, 0xFC00003F#32⟩,
   ⟨"MUL", 0x00000018#32, 0xFC00003F#32⟩,
   ⟨"DIV", 0x0000001A#32, 0xFC00003F#32⟩]

/-- The mnemonic of an instruction in spec/opcode_table.json. -/
def Instr.mnemonic : Instr → String
  | .store _ => "STORE"
  | .lasth => "LASTH"
  | .add _ _ => "ADD"
  | .sub _ _ => "SUB"
  | .mul _ _ => "MUL"
  | .div _ _ => "DIV"

/-- The bits of the word that an instruction's row fixes or the instruction uses; the others are don't-care
(spec/30_encoding.md R72). -/
def Instr.usedMask : Instr → BitVec 32
  | .store _ => 0xFC00FFC0#32
  | .lasth => 0xFC000000#32
  | .add _ _ => 0xFFFF003F#32
  | .sub _ _ => 0xFFFF003F#32
  | .mul _ _ => 0xFFFF003F#32
  | .div _ _ => 0xFFFF003F#32

/-! ### The order of the bits (spec/00_scope.md R8) -/

/-- The numeral that a string of bits spells, first character most significant (R8, R9), modulo 2^32. -/
def wordOfChars (bits : List Bool) : BitVec 32 :=
  bits.foldl (fun acc b => (acc <<< 1) ||| BitVec.setWidth 32 (BitVec.ofBool b)) 0

/-! ### Assembler and disassembler (spec/30_encoding.md R92) -/

/-- `field(A)`: "r0 = `00000`, r1 = `00001`, r10 = `00010`, r11 = `00011`", or the raw field. -/
def AsmOperand.field : AsmOperand → Option SrcField
  | .reg 0 => some 0b00000#5
  | .reg 1 => some 0b00001#5
  | .reg 10 => some 0b00010#5
  | .reg 11 => some 0b00011#5
  | .reg _ => none
  | .raw f => some f

/-- The two fields of an arithmetic line, if the assembler accepts both operands. -/
def assemblePair (mk : SrcField → SrcField → Instr) (a b : AsmOperand) : Option Instr :=
  match a.field, b.field with
  | some f1, some f2 => some (mk f1 f2)
  | some _, none => none
  | none, _ => none

/-- The instruction of a line of assembly; `none` where the assembler refuses. -/
def assemble : Asm → Option Instr
  | .store l => if l ≤ 1023 then some (.store (BitVec.ofNat 10 l)) else none
  | .lasth => some .lasth
  | .add a b => assemblePair Instr.add a b
  | .sub a b => assemblePair Instr.sub a b
  | .mul a b => assemblePair Instr.mul a b
  | .div a b => assemblePair Instr.div a b

/-- "A disassembler prints `rN` for an in-range field and `f=bbbbb` otherwise" (R92). -/
def disassembleField (f : SrcField) : AsmOperand :=
  if f = 0b00000#5 then .reg 0
  else if f = 0b00001#5 then .reg 1
  else if f = 0b00010#5 then .reg 10
  else if f = 0b00011#5 then .reg 11
  else .raw f

/-- The line of assembly of an instruction. -/
def disassemble : Instr → Asm
  | .store lit => .store lit.toNat
  | .lasth => .lasth
  | .add f1 f2 => .add (disassembleField f1) (disassembleField f2)
  | .sub f1 f2 => .sub (disassembleField f1) (disassembleField f2)
  | .mul f1 f2 => .mul (disassembleField f1) (disassembleField f2)
  | .div f1 f2 => .div (disassembleField f1) (disassembleField f2)

/-- The binary numeral of a source field, most significant bit first. -/
def fieldDigits (f : SrcField) : String :=
  let digit (b : Bool) : String := if b then "1" else "0"
  digit (f.getLsbD 4) ++ digit (f.getLsbD 3) ++ digit (f.getLsbD 2) ++ digit (f.getLsbD 1) ++ digit (f.getLsbD 0)

/-- An operand's text (R92). -/
def AsmOperand.text : AsmOperand → String
  | .reg n => "r" ++ toString n
  | .raw f => "f=" ++ fieldDigits f

/-- A line's text: the mnemonic in lower case and its operands (R92). -/
def Asm.text : Asm → String
  | .store l => "store #" ++ toString l
  | .lasth => "lasth"
  | .add a b => "add " ++ a.text ++ ", " ++ b.text
  | .sub a b => "sub " ++ a.text ++ ", " ++ b.text
  | .mul a b => "mul " ++ a.text ++ ", " ++ b.text
  | .div a b => "div " ++ a.text ++ ", " ++ b.text

end Sys2Proof
end

