-- ==== Sys2Proof/Machine/State.lean ====
section
/-! DEFINITION. The state of the block (spec/10_state.md R20), the marks the spec asks a model to keep (R35), the
interface ports as data (spec/60_exceptions.md R140), and the state after reset (R36, spec/70_reset_and_hazards.md R160). -/

namespace Sys2Proof.Machine

/-- The two register banks (spec/10_state.md R22, R30). -/
inductive Bank where
  | num
  | hist
  deriving DecidableEq, Repr

/-- Which source field a diagnostic names (spec/60_exceptions.md R147). -/
inductive Source where
  | one
  | two
  deriving DecidableEq, Repr

/-- The model fault `UnwrittenRead(bank, index)` of spec/60_exceptions.md R149, as a record. -/
structure UnwrittenRead where
  bank : Bank
  index : Nat
  deriving DecidableEq, Repr

/-- A status record: what one submission sends to the display sink (spec/60_exceptions.md R141). -/
inductive Status where
  | lenErr
  | stored (value : Word) (slot : BitVec 5)
  | lastValue (value : Word)
  | opcErr
  | functErr
  | result (value : Word) (divz : Bool)
  | addrErr (src : Source) (index : Nat)
  deriving DecidableEq, Repr

/-- The input ports `rst`, `in_valid`, `in_len_ok` and `in_word` at one step (spec/60_exceptions.md R140). -/
structure InPorts where
  rst : Bool
  valid : Bool
  lenOk : Bool
  word : BitVec 32
  deriving DecidableEq, Repr

/-- Why the machine stops. No run from reset reaches the two cursor faults: spec/10_state.md R33 says a cursor outside
its legal range cannot be reached (DESIGN CHOICE, log 5, safe). The third is the spec's own model fault. -/
inductive Fault where
  /-- Raised by STORE when `wn` is outside 1..21: it names an entry that does not exist, or entry 0, which no
  operation writes (spec/10_state.md R23, R26; spec/20_memory.md R53). Safe: the model stops. -/
  | numCursorIllegal (wn : BitVec 5)
  /-- Raised by ADD, SUB, MUL and DIV when `wh` is outside 0..9: it names an entry that does not exist
  (spec/10_state.md R27; spec/20_memory.md R53). Safe: the model stops. -/
  | histCursorIllegal (wh : BitVec 4)
  /-- Raised by `specStep` at a read of an entry not written since reset (spec/60_exceptions.md R149). `step` never
  raises it: it goes on and keeps the record (log 1, log 2, log 10). Safe: the machine stops. -/
  | unwrittenRead (u : UnwrittenRead)
  deriving DecidableEq, Repr

/-- Why an instruction has no meaning. -/
inductive Refusal where
  /-- Raised by the dispatcher for an instruction that has no meaning yet; no arm raises it now. Safe: the model stops. -/
  | notModelled (mnemonic : String)
  deriving DecidableEq, Repr

/-- The machine. The first five fields are the block's architectural state (spec/10_state.md R20), the next three the
marks spec/10_state.md R35 and spec/60_exceptions.md R149 ask of a model, the last three the interface. -/
structure State where
  /-- The number bank `num[0..21]` (R22); entry 0 is read through `State.readNum` only (R23). -/
  num : Vector Word 22
  /-- The history bank `hist[0..9]` (R30). -/
  hist : Vector Word 10
  /-- The number write cursor (R26). -/
  wn : BitVec 5
  /-- The history write cursor (R27). -/
  wh : BitVec 4
  /-- The history read cursor (R28). -/
  rh : BitVec 4
  /-- Which number-bank entries have been written since reset (R35). -/
  numWritten : Vector Bool 22
  /-- Which history-bank entries have been written since reset (R35). -/
  histWritten : Vector Bool 10
  /-- The first read since reset of an entry not written since reset (R149). DESIGN CHOICE, log 2, safe. -/
  unwrittenRead : Option UnwrittenRead
  /-- What the host drives on the input ports, one entry per step, earliest first (R140, R157).
  DESIGN CHOICE, log 3, safe. -/
  input : List InPorts
  /-- The status record on the output ports after the last step; `none` is `out_valid` = 0 (R140). -/
  out : Option Status
  /-- The records the display sink has received, oldest first (R155, R158). DESIGN CHOICE, log 4, safe. -/
  sink : List Status
  deriving DecidableEq, Repr

/-- Right after reset (spec/10_state.md R36, spec/70_reset_and_hazards.md R160). The contents of `num[1..21]` and
`hist[0..9]`, which the spec leaves unspecified, are 0: DESIGN CHOICE, log 1, unsafe. Nothing is presented on the
input ports and no status has been sent (R161). -/
def State.reset : State where
  num := Vector.replicate 22 0#32
  hist := Vector.replicate 10 0#32
  wn := 1#5
  wh := 0#4
  rh := 0#4
  numWritten := (Vector.replicate 22 false).set 0 true
  histWritten := Vector.replicate 10 false
  unwrittenRead := none
  input := []
  out := none
  sink := []

end Sys2Proof.Machine
end

