-- ==== Sys2Proof/Machine/Alu.lean ====
section
/-! DEFINITION. The function `OP(op, x, y)` of the arithmetic dispatch unit (spec/41_arithmetic.md R121 to R126). -/

namespace Sys2Proof.Machine

/-- The four operations (spec/30_encoding.md R77). -/
inductive AluOp where
  | add
  | sub
  | mul
  | div
  deriving DecidableEq, Repr

/-- The exact integer result: truncation toward zero for DIV (R125), 0 for a zero divisor (R126). -/
def AluOp.exact : AluOp → Int → Int → Int
  | .add, x, y => x + y
  | .sub, x, y => x - y
  | .mul, x, y => x * y
  | .div, x, y => if y = 0 then 0 else Int.tdiv x y

/-- The exact result of the signed operands, reduced modulo 2^32 (R121). -/
def aluResult (op : AluOp) (x y : Word) : Word := BitVec.ofInt 32 (op.exact x.toInt y.toInt)

end Sys2Proof.Machine
end

