-- ==== Sys2Proof/Machine/Flags.lean ====
section
/-! DEFINITION. The block has no flags and no condition codes (spec/10_state.md R32). What stands here is the one
indication an operation computes beside its result: `divz`, a field of the status output. -/

namespace Sys2Proof.Machine

/-- `divz`: set by DIV with divisor 0 and by nothing else (spec/41_arithmetic.md R120, R125;
spec/60_exceptions.md R148). -/
def divzOf (op : AluOp) (y : Word) : Bool :=
  match op with
  | .add => false
  | .sub => false
  | .mul => false
  | .div => y == 0#32

end Sys2Proof.Machine
end

