-- ==== Sys2Proof/Machine/Operands.lean ====
section
/-! DEFINITION. Operand forms: the zero-extended store literal and the decimal-digit source address
(spec/30_encoding.md R73, R74). -/

namespace Sys2Proof.Machine

/-- The value STORE writes, `zext_32(lit)` (spec/30_encoding.md R73). -/
def literalValue (lit : Literal) : Word := lit.setWidth 32

/-- `decaddr(f)`: the five bits read as decimal digits (spec/00_scope.md R11). -/
def decaddr (f : SrcField) : Nat :=
  10000 * (f.getLsbD 4).toNat + 1000 * (f.getLsbD 3).toNat + 100 * (f.getLsbD 2).toNat
    + 10 * (f.getLsbD 1).toNat + (f.getLsbD 0).toNat

/-- The number-bank entry a source field names; `none` where its index is above 21
(spec/41_arithmetic.md R120, spec/92_eei_decisions.md D8). -/
def numIndex (f : SrcField) : Option (Fin 22) :=
  if h : decaddr f ≤ 21 then some ⟨decaddr f, Nat.lt_succ_of_le h⟩ else none

/-- The number-bank entry a write cursor names: legal values 1..21 (spec/10_state.md R26). -/
def numSlot (c : BitVec 5) : Option (Fin 22) :=
  if h : 1 ≤ c.toNat ∧ c.toNat ≤ 21 then some ⟨c.toNat, Nat.lt_succ_of_le h.2⟩ else none

/-- The history-bank entry a write cursor names: legal values 0..9 (spec/10_state.md R27). -/
def histSlot (c : BitVec 4) : Option (Fin 10) :=
  if h : c.toNat ≤ 9 then some ⟨c.toNat, Nat.lt_succ_of_le h⟩ else none

/-- `advance_wn(c) = c + 1 if c < 21, else 1` (spec/40_register_ops.md R101). -/
def advanceWn (c : BitVec 5) : BitVec 5 := if c.toNat < 21 then c + 1#5 else 1#5

/-- `(wh + 1) mod 10` (spec/40_register_ops.md R103). -/
def advanceWh (c : BitVec 4) : BitVec 4 := BitVec.ofNat 4 ((c.toNat + 1) % 10)

/-- `(rh + 9) mod 10`, the entry the next LASTH reads (spec/40_register_ops.md R104, spec/92_eei_decisions.md D7). -/
def prevEntry (c : BitVec 4) : Fin 10 := ⟨(c.toNat + 9) % 10, Nat.mod_lt _ (by decide)⟩

/-- The read cursor that names a history-bank entry. -/
def histCursor (j : Fin 10) : BitVec 4 := BitVec.ofNat 4 j.val

end Sys2Proof.Machine
end

