-- ==== Sys2Proof/Machine/Ops.lean ====
section
/-! DEFINITION. The named operations over the register file and the interface (spec/40_register_ops.md R100 to R104;
spec/60_exceptions.md R141, R143). The block has no trap entry and no trap return (R143, R152): a diagnostic is
`State.report` and nothing else. -/

namespace Sys2Proof.Machine

/-! ### The output ports -/

/-- `report(kind, fields...)`: the one status record of the submission, on the output ports and in the sink
(spec/00_scope.md R10, spec/60_exceptions.md R141). -/
def State.report (r : Status) (s : State) : State := { s with out := some r, sink := s.sink ++ [r] }

/-- A step that presents no status: `out_valid` = 0 (spec/60_exceptions.md R140). -/
def State.quiet (s : State) : State := { s with out := none }

/-- An operation followed by the status of its submission. -/
def thenReport (r : Status) (o : Host.Outcome State Fault Refusal) : Host.Outcome State Fault Refusal :=
  match o with
  | .next t => .next (t.report r)
  | .fault f => .fault f
  | .refused q => .refused q

/-! ### The model fault UnwrittenRead -/

/-- Records `UnwrittenRead(bank, index)` (spec/60_exceptions.md R149). The first one stays: "no later submission
clears the fault". DESIGN CHOICE, log 2, safe. -/
def State.noteUnwritten (u : UnwrittenRead) (s : State) : State :=
  { s with unwrittenRead := s.unwrittenRead <|> some u }

/-- The check `loadNumber` makes before it reads entry `i` (spec/40_register_ops.md R102); entry 0 is the constant and
needs no mark. -/
def State.noteNumRead (i : Fin 22) (s : State) : State :=
  if i = 0 ∨ s.numWritten[i] = true then s else s.noteUnwritten ⟨.num, i.val⟩

/-- The check `readLastHistory` makes before it reads entry `j` (spec/40_register_ops.md R104). -/
def State.noteHistRead (j : Fin 10) (s : State) : State :=
  if s.histWritten[j] = true then s else s.noteUnwritten ⟨.hist, j.val⟩

/-! ### The register file -/

/-- The value of number-bank entry `i`: entry 0 is hardwired to 0 (spec/10_state.md R23). An entry not written since
reset answers what reset left there: DESIGN CHOICE, log 1, unsafe. -/
def State.readNum (s : State) (i : Fin 22) : Word := if i = 0 then 0#32 else s.num[i]

/-- Writes number-bank entry `i` and marks it written (spec/10_state.md R35). -/
def State.writeNum (i : Fin 22) (v : Word) (s : State) : State :=
  { s with num := s.num.set i.val v i.isLt, numWritten := s.numWritten.set i.val true i.isLt }

/-- Writes history-bank entry `j` and marks it written (spec/10_state.md R35). -/
def State.writeHist (j : Fin 10) (v : Word) (s : State) : State :=
  { s with hist := s.hist.set j.val v j.isLt, histWritten := s.histWritten.set j.val true j.isLt }

/-- `storeNumber(v)` (spec/40_register_ops.md R100). The slot it writes is the state's `wn`. -/
def storeNumber (v : Word) (s : State) : Host.Outcome State Fault Refusal :=
  match numSlot s.wn with
  | some i => .next { s.writeNum i v with wn := advanceWn s.wn }
  | none => .fault (.numCursorIllegal s.wn)

/-- `recordHistory(v)` (spec/40_register_ops.md R103): write, advance, resynchronise the read cursor. -/
def recordHistory (v : Word) (s : State) : Host.Outcome State Fault Refusal :=
  match histSlot s.wh with
  | some j => .next { s.writeHist j v with wh := advanceWh s.wh, rh := advanceWh s.wh }
  | none => .fault (.histCursorIllegal s.wh)

/-- The value `readLastHistory` returns (spec/40_register_ops.md R104). -/
def State.lastValue (s : State) : Word := s.hist[prevEntry s.rh]

/-- What `readLastHistory` does to the state (spec/40_register_ops.md R104): the read cursor moves back by one, from 0
to 9 (spec/92_eei_decisions.md D7), and the entry's mark is checked. -/
def State.stepBack (s : State) : State :=
  { s.noteHistRead (prevEntry s.rh) with rh := histCursor (prevEntry s.rh) }

/-! ### Reset and the input ports -/

/-- `Reset` (spec/70_reset_and_hazards.md R160): the register file takes the values of `State.reset`, and no status is
emitted (R161). What the host will drive next and what the sink has received stand outside the block and stay.
DEDUCED, log 6, safe. -/
def State.applyReset (s : State) : State := { State.reset with input := s.input, sink := s.sink }

/-- The values on the input ports at this step, and the state with them consumed; `none` where the host presents
nothing more (spec/60_exceptions.md R157). -/
def State.takeInput (s : State) : Option (InPorts × State) :=
  match s.input with
  | [] => none
  | p :: rest => some (p, { s with input := rest })

end Sys2Proof.Machine
end

