-- ==== Sys2Proof/Machine/Arithmetic.lean ====
section
/-! DEFINITION. The arithmetic dispatch unit: ADD, SUB, MUL and DIV (spec/41_arithmetic.md). -/

namespace Sys2Proof.Machine

/-- The second half of `ARITH`, both addresses being in range: read both entries, compute, record, report
(spec/41_arithmetic.md R120). -/
def arithOn (op : AluOp) (i j : Fin 22) (s : State) : Host.Outcome State Fault Refusal :=
  let r := aluResult op (s.readNum i) (s.readNum j)
  thenReport (.result r (divzOf op (s.readNum j))) (recordHistory r ((s.noteNumRead i).noteNumRead j))

/-- `ARITH(op, f1, f2)` (spec/41_arithmetic.md R120): both range checks come before either read, `sourceOne` first. -/
def arith (op : AluOp) (f1 f2 : SrcField) (s : State) : Host.Outcome State Fault Refusal :=
  match numIndex f1 with
  | none => .next (s.report (.addrErr .one (decaddr f1)))
  | some i =>
    match numIndex f2 with
    | none => .next (s.report (.addrErr .two (decaddr f2)))
    | some j => arithOn op i j s

/-- ADD (spec/41_arithmetic.md R122). -/
def execAdd (f1 f2 : SrcField) (s : State) : Host.Outcome State Fault Refusal := arith .add f1 f2 s

/-- SUB (spec/41_arithmetic.md R123). -/
def execSub (f1 f2 : SrcField) (s : State) : Host.Outcome State Fault Refusal := arith .sub f1 f2 s

/-- MUL (spec/41_arithmetic.md R124). -/
def execMul (f1 f2 : SrcField) (s : State) : Host.Outcome State Fault Refusal := arith .mul f1 f2 s

/-- DIV (spec/41_arithmetic.md R125, R126). -/
def execDiv (f1 f2 : SrcField) (s : State) : Host.Outcome State Fault Refusal := arith .div f1 f2 s

end Sys2Proof.Machine
end

