-- ==== Sys2Proof/Machine/RegisterOps.lean ====
section
/-! DEFINITION. The register-management instructions STORE and LASTH (spec/40_register_ops.md R105, R106). -/

namespace Sys2Proof.Machine

/-- STORE (spec/40_register_ops.md R105). -/
def execStore (lit : Literal) (s : State) : Host.Outcome State Fault Refusal :=
  thenReport (.stored (literalValue lit) s.wn) (storeNumber (literalValue lit) s)

/-- LASTH (spec/40_register_ops.md R106). -/
def execLasth (s : State) : Host.Outcome State Fault Refusal :=
  .next (s.stepBack.report (.lastValue s.lastValue))

end Sys2Proof.Machine
end

