-- ==== Sys2Proof/Machine/Dispatch.lean ====
section
/-! DEFINITION. One arm per instruction. -/

namespace Sys2Proof.Machine

def exec (i : Instr) (s : State) : Host.Outcome State Fault Refusal :=
  match i with
  | .store lit => Sys2Proof.Machine.execStore lit s
  | .lasth => Sys2Proof.Machine.execLasth s
  | .add f1 f2 => Sys2Proof.Machine.execAdd f1 f2 s
  | .sub f1 f2 => Sys2Proof.Machine.execSub f1 f2 s
  | .mul f1 f2 => Sys2Proof.Machine.execMul f1 f2 s
  | .div f1 f2 => Sys2Proof.Machine.execDiv f1 f2 s

end Sys2Proof.Machine
end

