-- ==== Sys2Proof/Machine/Submit.lean ====
section
/-! DEFINITION. One submission, and what one value of the input ports does (spec/30_encoding.md R90;
spec/60_exceptions.md R140, R157). -/

namespace Sys2Proof.Machine

/-- `Submit(in_len_ok, w)` (spec/30_encoding.md R90): the length check, then the decoder, then the instruction.
A diagnostic changes no state but the status output (spec/60_exceptions.md R143). -/
def submit (lenOk : Bool) (w : BitVec 32) (s : State) : Host.Outcome State Fault Refusal :=
  if lenOk = false then .next (s.report .lenErr)
  else
    match decode w with
    | .instr i => exec i s
    | .badOpcode => .next (s.report .opcErr)
    | .badFunction => .next (s.report .functErr)

/-- One value of the input ports: reset ignores a submission presented with it (spec/70_reset_and_hazards.md R162);
no submission leaves everything but the status output (spec/60_exceptions.md R141, kind 0). -/
def applyPorts (p : InPorts) (s : State) : Host.Outcome State Fault Refusal :=
  if p.rst = true then .next s.applyReset
  else if p.valid = true then submit p.lenOk p.word s
  else .next s.quiet

/-- The ports that present a string of bits: the framer sets `in_len_ok` "exactly when the string had 32 characters"
(spec/92_eei_decisions.md D2), and character 0 is the most significant bit (spec/00_scope.md R8).
DESIGN CHOICE, log 8, safe. -/
def frame (bits : List Bool) : InPorts :=
  { rst := false, valid := true, lenOk := bits.length == 32, word := wordOfChars bits }

/-- The ports that present one instruction word. -/
def present (w : BitVec 32) : InPorts := { rst := false, valid := true, lenOk := true, word := w }

end Sys2Proof.Machine
end

