-- ==== Sys2Proof/Machine/Step.lean ====
section
/-! DEFINITION. One step: the next value on the input ports, to completion (spec/20_memory.md R56, R57). -/

namespace Sys2Proof.Machine

/-- One step (spec/60_exceptions.md R140, R157). Where the host presents nothing, the block keeps its state and shows
no status. -/
def step (s : State) : Host.Outcome State Fault Refusal :=
  match s.takeInput with
  | some (p, s') => applyPorts p s'
  | none => .next s.quiet

/-- `s` with the word `w`, of which the opcode table gives `nbits`, presented at the next step; bits above `nbits`
are 0, and a longer string is presented as the framer presents it, with `in_len_ok` = 0. The block fetches nothing
(spec/10_state.md R31): the caller presents each instruction (log 3). -/
def State.withFetchWord (s : State) (nbits w : Nat) : State :=
  { s with
    input :=
      { rst := false, valid := true, lenOk := decide (nbits ≤ 32), word := BitVec.ofNat 32 (w % 2 ^ nbits) } :: s.input }

end Sys2Proof.Machine
end

