-- ==== Sys2Proof/Config.lean ====
section
/-! DEFINITION. What the spec leaves to a parameter: the two texts of spec/00_scope.md R7 marked `argument`.
Both are opaque: no proof can see their wording. -/

namespace Sys2Proof

/-- `DIVZ_TEXT`, the wording of the division-by-zero line (spec/00_scope.md R7, spec/92_eei_decisions.md D10).
DESIGN CHOICE, log 7, safe: a constant without a body. -/
opaque Config.divzText : String

/-- `STORE_TEXT(value, slot)`, the wording of the store confirmation (spec/00_scope.md R7,
spec/92_eei_decisions.md D11). DESIGN CHOICE, log 7, safe: a constant without a body. -/
opaque Config.storeText : Word → BitVec 5 → String

end Sys2Proof
end

