-- ==== Sys2Proof/Machine/Sink.lean ====
section
/-! DEFINITION. The output ports of a status record and the lines the display sink prints for it
(spec/60_exceptions.md R140, R141, R155). -/

namespace Sys2Proof.Machine

/-- The output ports (spec/60_exceptions.md R140). -/
structure OutPorts where
  valid : Bool
  kind : BitVec 3
  value : Word
  slot : BitVec 5
  src : BitVec 2
  index : BitVec 14
  divz : Bool
  deriving DecidableEq, Repr

/-- `out_kind`: the code of a status (spec/60_exceptions.md R141). -/
def Status.code : Status → BitVec 3
  | .lenErr => 1#3
  | .stored _ _ => 2#3
  | .lastValue _ => 3#3
  | .opcErr => 4#3
  | .functErr => 5#3
  | .result _ _ => 6#3
  | .addrErr _ _ => 7#3

/-- `out_src`: 1 for sourceOne, 2 for sourceTwo (spec/60_exceptions.md R140, R147). -/
def Source.code : Source → BitVec 2
  | .one => 1#2
  | .two => 2#2

/-- The output ports with no status: "Output fields that a status kind does not list are 0", kind 0 is none. -/
def OutPorts.idle : OutPorts :=
  { valid := false, kind := 0#3, value := 0#32, slot := 0#5, src := 0#2, index := 0#14, divz := false }

/-- The output ports of a status record; fields the kind does not list stay 0 (spec/60_exceptions.md R140). -/
def Status.ports (r : Status) : OutPorts :=
  let base : OutPorts := { OutPorts.idle with valid := true, kind := r.code }
  match r with
  | .lenErr => base
  | .stored value slot => { base with value := value, slot := slot }
  | .lastValue value => { base with value := value }
  | .opcErr => base
  | .functErr => base
  | .result value divz => { base with value := value, divz := divz }
  | .addrErr src index => { base with src := src.code, index := BitVec.ofNat 14 index }

/-- The output ports after the last step. -/
def State.outPorts (s : State) : OutPorts :=
  match s.out with
  | none => OutPorts.idle
  | some r => r.ports

/-- A value in signed decimal: "a leading `-` when negative, no `+`, no leading zeros" (spec/60_exceptions.md R155). -/
def decimalText (v : Word) : String := toString v.toInt

/-- The lines the display sink prints for a status (spec/60_exceptions.md R141, R155). RESULT with `divz` renders two
lines (spec/92_eei_decisions.md D10). -/
def Status.lines : Status → List String
  | .lenErr => ["Invalid Instruction Length"]
  | .stored value slot => [Config.storeText value slot]
  | .lastValue value => ["Last Calculated Value: " ++ decimalText value]
  | .opcErr => ["Invalid OPCODE"]
  | .functErr => ["Invalid Function Code"]
  | .result value divz =>
    (if divz then [Config.divzText] else []) ++ ["Calculated Result: " ++ decimalText value]
  | .addrErr _ _ => ["Invalid Register Address"]

/-- The text of everything the sink has received, oldest line first. -/
def State.transcript (s : State) : List String := s.sink.flatMap Status.lines

end Sys2Proof.Machine
end

