-- ==== Sys2Proof/Machine/SpecStep.lean ====
section
/-! DEFINITION. The step that raises the model fault `UnwrittenRead` (spec/60_exceptions.md R149), beside `step`, which
goes on as the hardware does and keeps the record. DESIGN CHOICE, log 10, safe. -/

namespace Sys2Proof.Machine

/-- Raises the recorded `UnwrittenRead`: a state that holds the record is a faulted state and no next state
(spec/60_exceptions.md R149). -/
def raiseUnwritten (o : Host.Outcome State Fault Refusal) : Host.Outcome State Fault Refusal :=
  match o with
  | .next t =>
    match t.unwrittenRead with
    | some u => .fault (.unwrittenRead u)
    | none => .next t
  | .fault f => .fault f
  | .refused q => .refused q

/-- One step, ended by the model fault at a read of an unwritten entry (spec/40_register_ops.md R102, R104): the
submission emits no status (spec/60_exceptions.md R142), and from a faulted state every later submission faults again
(R149). -/
def specStep (s : State) : Host.Outcome State Fault Refusal := raiseUnwritten (step s)

/-- The machine whose runs end at a model fault (spec/60_exceptions.md R158). -/
def specCore : Host.Core :=
  { State := State, Fault := Fault, Refusal := Refusal, step := specStep, reset := State.reset }

end Sys2Proof.Machine
end

