-- ==== Sys2Proof/Safety.lean ====
section
/-! DEFINITION. What counts as a legal, clean and bounded state, which runs are meant, and the relations between
states, in the terms the statements use. -/

namespace Sys2Proof.Machine

/-! ### Predicates of one state -/

/-- Every cursor holds one of its legal values (spec/10_state.md R33). -/
abbrev State.CursorsLegal (s : State) : Prop :=
  1 ≤ s.wn.toNat ∧ s.wn.toNat ≤ 21 ∧ s.wh.toNat ≤ 9 ∧ s.rh.toNat ≤ 9

/-- No entry has been read since reset that was not written since reset: the state is no faulted state of
spec/60_exceptions.md R149. -/
abbrev State.Clean (s : State) : Prop := s.unwrittenRead = none

/-- A read of number-bank entry `i` has a value the spec gives: entry 0, or an entry written since reset
(spec/40_register_ops.md R102). -/
abbrev State.NumReadable (s : State) (i : Fin 22) : Prop := i = 0 ∨ s.numWritten[i] = true

/-- The value ranges of spec/10_state.md R25 and spec/41_arithmetic.md R128, for entries written since reset. The
history bank's range is claimed only of a clean state: a result computed from an unwritten entry has no range. -/
abbrev State.ValuesBounded (s : State) : Prop :=
  (∀ i : Fin 22, i ≠ 0 → s.numWritten[i] = true → s.num[i].toNat ≤ 1023) ∧
    (s.Clean → ∀ j : Fin 10, s.histWritten[j] = true → -1023 ≤ s.hist[j].toInt ∧ s.hist[j].toInt ≤ 1046529)

/-! ### Classes of instructions and statuses -/

/-- ADD, SUB, MUL or DIV (the arithmetic group of spec/30_encoding.md R76). -/
def isArith : Instr → Bool
  | .store _ => false
  | .lasth => false
  | .add _ _ => true
  | .sub _ _ => true
  | .mul _ _ => true
  | .div _ _ => true

/-- An arithmetic instruction whose source fields both name an entry, so that it writes the history bank
(spec/41_arithmetic.md R120). -/
def writesHistory : Instr → Bool
  | .store _ => false
  | .lasth => false
  | .add f1 f2 => decide (decaddr f1 ≤ 21 ∧ decaddr f2 ≤ 21)
  | .sub f1 f2 => decide (decaddr f1 ≤ 21 ∧ decaddr f2 ≤ 21)
  | .mul f1 f2 => decide (decaddr f1 ≤ 21 ∧ decaddr f2 ≤ 21)
  | .div f1 f2 => decide (decaddr f1 ≤ 21 ∧ decaddr f2 ≤ 21)

/-- A status that is a diagnostic: an anomaly with an early return (spec/60_exceptions.md R143 to R147). -/
def Status.isDiagnostic : Status → Bool
  | .lenErr => true
  | .stored _ _ => false
  | .lastValue _ => false
  | .opcErr => true
  | .functErr => true
  | .result _ _ => false
  | .addrErr _ _ => true

/-- The ports present a submission that the block accepts (spec/60_exceptions.md R140; spec/70_reset_and_hazards.md
R162). -/
abbrev InPorts.Submits (p : InPorts) : Prop := p.rst = false ∧ p.valid = true

/-- The ports submit a word that decodes to the instruction `i`. -/
abbrev InPorts.Runs (p : InPorts) (i : Instr) : Prop :=
  p.Submits ∧ p.lenOk = true ∧ decode p.word = .instr i

/-! ### Relations between two states -/

/-- The block's state and the marks are the same: "no bank entry, no written mark and no cursor changes"
(spec/95_test_vectors.md). -/
abbrev SameBlock (s t : State) : Prop :=
  t.num = s.num ∧ t.hist = s.hist ∧ t.wn = s.wn ∧ t.wh = s.wh ∧ t.rh = s.rh ∧ t.numWritten = s.numWritten ∧
    t.histWritten = s.histWritten ∧ t.unwrittenRead = s.unwrittenRead

/-- `t` shows the status `r` and the sink has received it after what it had from `s` (spec/60_exceptions.md R142). -/
abbrev Reports (s t : State) (r : Status) : Prop := t.out = some r ∧ t.sink = s.sink ++ [r]

/-- `recordHistory(v)` and the RESULT status took place between `s` and `t` (spec/40_register_ops.md R103,
spec/41_arithmetic.md R120): the entry `wh` named holds `v` and is marked, `wh` advanced modulo 10, `rh` is `wh`. -/
abbrev RecordsResult (s t : State) (v : Word) (divz : Bool) : Prop :=
  (∀ k : Fin 10, k.val = s.wh.toNat → t.hist[k] = v ∧ t.histWritten[k] = true) ∧
    t.wh.toNat = (s.wh.toNat + 1) % 10 ∧ t.rh = t.wh ∧ Reports s t (.result v divz)

/-- Two states that agree on all but the marks of spec/10_state.md R35 and the UnwrittenRead record. -/
abbrev SameHardware (s t : State) : Prop :=
  t.num = s.num ∧ t.hist = s.hist ∧ t.wn = s.wn ∧ t.wh = s.wh ∧ t.rh = s.rh ∧ t.input = s.input ∧ t.out = s.out ∧
    t.sink = s.sink

/-- Two states that agree on all but the number-bank entries no source field names: only 0, 1, 10 and 11 can be read
(spec/30_encoding.md R75), and entry 0 is the constant. -/
abbrev SameReadable (s t : State) : Prop :=
  (∀ i : Fin 22, i.val = 1 ∨ i.val = 10 ∨ i.val = 11 → t.num[i] = s.num[i] ∧ t.numWritten[i] = s.numWritten[i]) ∧
    t.hist = s.hist ∧ t.wn = s.wn ∧ t.wh = s.wh ∧ t.rh = s.rh ∧ t.histWritten = s.histWritten ∧
    t.unwrittenRead = s.unwrittenRead ∧ t.input = s.input ∧ t.out = s.out ∧ t.sink = s.sink

/-- The history entry `r` places after `j`. -/
def rotateEntry (r : Nat) (j : Fin 10) : Fin 10 := ⟨(j.val + r) % 10, Nat.mod_lt _ (by decide)⟩

/-- `t` is `s` with the history bank, its marks and both history cursors turned by `r` places
(spec/92_eei_decisions.md D6). -/
def RotatedBy (r : Nat) (s t : State) : Prop :=
  (∀ j : Fin 10, t.hist[rotateEntry r j] = s.hist[j] ∧ t.histWritten[rotateEntry r j] = s.histWritten[j]) ∧
    s.wh.toNat ≤ 9 ∧ s.rh.toNat ≤ 9 ∧ t.wh.toNat = (s.wh.toNat + r) % 10 ∧ t.rh.toNat = (s.rh.toNat + r) % 10 ∧
    t.num = s.num ∧ t.numWritten = s.numWritten ∧ t.wn = s.wn ∧
    t.unwrittenRead.isSome = s.unwrittenRead.isSome ∧ t.input = s.input ∧ t.out = s.out ∧ t.sink = s.sink

/-- `t` is `s` up to the place in the history bank where its cursors started. -/
def HistoryRotated (s t : State) : Prop := ∃ r, RotatedBy r s t

/-- Both outcomes are next states related by `R`, or both stop for the same reason. -/
def OutcomeRel (R : State → State → Prop) (o o' : Host.Outcome State Fault Refusal) : Prop :=
  match o, o' with
  | .next t, .next t' => R t t'
  | .fault f, .fault f' => f = f'
  | .refused q, .refused q' => q = q'
  | .next _, .fault _ => False
  | .next _, .refused _ => False
  | .fault _, .next _ => False
  | .fault _, .refused _ => False
  | .refused _, .next _ => False
  | .refused _, .fault _ => False

/-! ### Sequences of instructions -/

/-- Instructions one after the other, each from the state the one before left (spec/20_memory.md R57), stopping at the
first fault or refusal. -/
def execAll : List Instr → State → Host.Outcome State Fault Refusal
  | [], s => .next s
  | i :: is, s =>
    match exec i s with
    | .next t => execAll is t
    | .fault f => .fault f
    | .refused q => .refused q

/-- h of spec/70_reset_and_hazards.md R164: the number of history writes in a sequence. -/
def historyWrites (is : List Instr) : Nat := is.countP writesHistory

/-- The number of LASTHs since the last history write of a sequence, or since its start (R164), one instruction at
a time: `n` is the count so far. -/
def lasthCount (n : Nat) : List Instr → Nat
  | [] => n
  | i :: is => lasthCount (if writesHistory i then 0 else if i = .lasth then n + 1 else n) is

end Sys2Proof.Machine
end

