-- ==== Sys2Proof/Certificates/Slice0/Obligations.lean ====
section
/-! DEFINITION. The statements for the provers. Each docstring names the rule or the passage of spec/ it formalises,
and the log entry where it rests on a choice of the model or of the spec's own decisions. -/

open Sys2Proof Sys2Proof.Machine

/-! ### Encoding and decoding -/

/-- Words written out from the encodings of spec/opcode_table.json and spec/95_test_vectors.md section 2.1 decode to the
instruction, or the class, they stand for. -/
def Obligations.SampleWordsDecode : Prop :=
  decode 0b00000100000000001111111111000000#32 = .instr (.store 1023#10) ∧
    decode 0b00000111111111111111111111111111#32 = .instr (.store 1023#10) ∧
    decode 0b10000111111111111111111111111111#32 = .instr .lasth ∧
    decode 0b00000000001000100000000000100000#32 = .instr (.add 0b00001#5 0b00010#5) ∧
    decode 0b00000000000000001111111111100000#32 = .instr (.add 0b00000#5 0b00000#5) ∧
    decode 0b00000000010000110000000000100010#32 = .instr (.sub 0b00010#5 0b00011#5) ∧
    decode 0b00000000011000010000000000011000#32 = .instr (.mul 0b00011#5 0b00001#5) ∧
    decode 0b00000000011000110000000000011010#32 = .instr (.div 0b00011#5 0b00011#5) ∧
    decode 0b10000000000000000000000000000000#32 = .badOpcode ∧
    decode 0b00001000000000000000000000100000#32 = .badOpcode ∧
    decode 0b00000000000000000000000000100001#32 = .badFunction

/-- Decoding the encoding of any instruction gives it back, with every operand at every value
(spec/30_encoding.md sections 1, 3 and 5). -/
def Obligations.DecodeOfEncode : Prop := ∀ i : Instr, decode (encode i) = .instr i

/-- The other direction: encoding what a word decodes to gives the word with its don't-care bits cleared
(spec/30_encoding.md section 1, "Fields an instruction does not use are don't-care"; section 5, assembled as zero). -/
def Obligations.DecodedWordReencodes : Prop :=
  ∀ (w : BitVec 32) (i : Instr), decode w = .instr i → encode i = w &&& i.usedMask

/-- The decoder of the validation order and the six match/mask pairs of the table agree on every word, and no word
matches two rows (spec/30_encoding.md section 3: "A decoder can be written from the masks alone"). -/
def Obligations.WordsMatchAtMostOneRow : Prop :=
  ∀ w : BitVec 32,
    match decode w with
    | .instr i => (opcodeTable.filter fun r => r.matchesWord w).map OpcodeRow.mnemonic = [i.mnemonic]
    | .badOpcode => (opcodeTable.filter fun r => r.matchesWord w) = [] ∧ w.extractLsb' 26 6 ≠ 0#6
    | .badFunction => (opcodeTable.filter fun r => r.matchesWord w) = [] ∧ w.extractLsb' 26 6 = 0#6

/-- spec/30_encoding.md section 1: the five fields, each at its bits (the order of the bits is the spec's own decision
D1), and every bit of the word in exactly one of them. -/
def Obligations.FieldsPartitionTheWord : Prop :=
  (∀ w : BitVec 32,
    (∀ n, n < 6 → (opcOf w).getLsbD n = w.getLsbD (26 + n)) ∧ (∀ n, n < 5 → (f1Of w).getLsbD n = w.getLsbD (21 + n)) ∧
      (∀ n, n < 5 → (f2Of w).getLsbD n = w.getLsbD (16 + n)) ∧ (∀ n, n < 10 → (litOf w).getLsbD n = w.getLsbD (6 + n)) ∧
      (∀ n, n < 6 → (fnOf w).getLsbD n = w.getLsbD n) ∧
      packFields (opcOf w) (f1Of w) (f2Of w) (litOf w) (fnOf w) = w) ∧
    ∀ (opc : BitVec 6) (f1 f2 : SrcField) (lit : Literal) (fn : BitVec 6),
      opcOf (packFields opc f1 f2 lit fn) = opc ∧ f1Of (packFields opc f1 f2 lit fn) = f1 ∧
        f2Of (packFields opc f1 f2 lit fn) = f2 ∧ litOf (packFields opc f1 f2 lit fn) = lit ∧
        fnOf (packFields opc f1 f2 lit fn) = fn

/-- spec/30_encoding.md R76 and R77: what each value of the opcode field and of the function field selects, whatever
the fields that the instruction does not use hold, and the diagnostic of every other value. -/
def Obligations.OpcodeMapSelectsTheOperation : Prop :=
  ∀ (f1 f2 : SrcField) (lit : Literal) (fn : BitVec 6),
    decode (packFields 0b000001#6 f1 f2 lit fn) = .instr (.store lit) ∧
      decode (packFields 0b100001#6 f1 f2 lit fn) = .instr .lasth ∧
      decode (packFields 0b000000#6 f1 f2 lit 0b100000#6) = .instr (.add f1 f2) ∧
      decode (packFields 0b000000#6 f1 f2 lit 0b100010#6) = .instr (.sub f1 f2) ∧
      decode (packFields 0b000000#6 f1 f2 lit 0b011000#6) = .instr (.mul f1 f2) ∧
      decode (packFields 0b000000#6 f1 f2 lit 0b011010#6) = .instr (.div f1 f2) ∧
      (∀ (opc : BitVec 6) (s : State), opc ≠ 0b000000#6 → opc ≠ 0b000001#6 → opc ≠ 0b100001#6 →
        submit true (packFields opc f1 f2 lit fn) s = .next (s.report .opcErr) ∧
          Status.opcErr.lines = ["Invalid OPCODE"]) ∧
      ∀ s : State, fn ≠ 0b100000#6 → fn ≠ 0b100010#6 → fn ≠ 0b011000#6 → fn ≠ 0b011010#6 →
        submit true (packFields 0b000000#6 f1 f2 lit fn) s = .next (s.report .functErr) ∧
          Status.functErr.lines = ["Invalid Function Code"]

/-- Character c of the 32-character string is bit 31 - c of the word the framer presents, and the length indication is
set (spec/00_scope.md section 4 and the spec's own decision D1, D2; log 8). -/
def Obligations.CharactersMapToBits : Prop :=
  ∀ (bits : List Bool) (c : Nat) (h : c < bits.length), bits.length = 32 →
    (frame bits).word.getLsbD (31 - c) = bits[c] ∧ (frame bits).Submits ∧ (frame bits).lenOk = true

/-- What a disassembler prints assembles to the same instruction; the assembler accepts exactly the well-formed lines;
`rN` is accepted for N in 0, 1, 10, 11 and stands for the field whose decimal parse is N, `f=bbbbb` for itself; a line
assembles to its own operation with its literal, or its operands in order; a disassembler prints `rN` for an in-range
field and the raw field otherwise (spec/30_encoding.md section 5, the spec's own decision D15). -/
def Obligations.AssemblerRoundTrip : Prop :=
  (∀ i : Instr, assemble (disassemble i) = some i) ∧
    (∀ a : Asm, (assemble a).isSome = a.wellFormed) ∧
    (∀ n : Nat, (AsmOperand.reg n).wellFormed = true ↔ n = 0 ∨ n = 1 ∨ n = 10 ∨ n = 11) ∧
    (∀ (n : Nat) (f : SrcField), (AsmOperand.reg n).field = some f ↔ decaddr f = n ∧ n ≤ 21) ∧
    (∀ f : SrcField, (AsmOperand.raw f).field = some f) ∧
    (∀ l : Nat, l ≤ 1023 → ∃ lit, assemble (.store l) = some (.store lit) ∧ lit.toNat = l) ∧
    assemble .lasth = some .lasth ∧
    (∀ (a b : AsmOperand) (f1 f2 : SrcField), a.field = some f1 → b.field = some f2 →
      assemble (.add a b) = some (.add f1 f2) ∧ assemble (.sub a b) = some (.sub f1 f2) ∧
        assemble (.mul a b) = some (.mul f1 f2) ∧ assemble (.div a b) = some (.div f1 f2)) ∧
    ∀ f : SrcField, disassembleField f = if decaddr f ≤ 21 then .reg (decaddr f) else .raw f

/-- spec/00_scope.md R11 and spec/30_encoding.md R74: `decaddr` as a sum, as the decimal parse of the field's five
digits, first character first, and as the complete map from field to index; an arithmetic word's two source fields, to
which it is applied, are bits 25..21 and 20..16. -/
def Obligations.DecimalDigitAddress : Prop :=
  (∀ f : SrcField,
    decaddr f = 10000 * (f.getLsbD 4).toNat + 1000 * (f.getLsbD 3).toNat + 100 * (f.getLsbD 2).toNat
        + 10 * (f.getLsbD 1).toNat + (f.getLsbD 0).toNat ∧
      decaddr f = [f.getLsbD 4, f.getLsbD 3, f.getLsbD 2, f.getLsbD 1, f.getLsbD 0].foldl
        (fun n d => 10 * n + d.toNat) 0) ∧
    (List.range 32).map (fun n => decaddr (BitVec.ofNat 5 n)) =
      [0, 1, 10, 11, 100, 101, 110, 111, 1000, 1001, 1010, 1011, 1100, 1101, 1110, 1111,
        10000, 10001, 10010, 10011, 10100, 10101, 10110, 10111, 11000, 11001, 11010, 11011, 11100, 11101, 11110, 11111] ∧
    ∀ (w : BitVec 32) (f1 f2 : SrcField),
      decode w = .instr (.add f1 f2) ∨ decode w = .instr (.sub f1 f2) ∨ decode w = .instr (.mul f1 f2) ∨
        decode w = .instr (.div f1 f2) →
      decaddr f1 = decaddr (w.extractLsb' 21 5) ∧ decaddr f2 = decaddr (w.extractLsb' 16 5)

/-- A source field is in range exactly when its top three bits are 0; then its index is 0, 1, 10 or 11; otherwise it is
100 or more (spec/30_encoding.md section 2, derived there). -/
def Obligations.InRangeSourceFields : Prop :=
  ∀ f : SrcField,
    (decaddr f ≤ 21 ↔ f.extractLsb' 2 3 = 0#3) ∧
      (decaddr f ≤ 21 → decaddr f = 0 ∨ decaddr f = 1 ∨ decaddr f = 10 ∨ decaddr f = 11) ∧
      (21 < decaddr f → 100 ≤ decaddr f ∧ decaddr f ≤ 11111)

/-! ### The arithmetic unit -/

/-- The operations on mathematical integers, reduced modulo 2^32, are the wrapping operations on 32-bit words, for all
operands (spec/41_arithmetic.md section 1; the width and the wrap are the spec's own decision D4, D12). -/
def Obligations.AluMatchesWordArithmetic : Prop :=
  ∀ x y : Word,
    aluResult .add x y = x + y ∧ aluResult .sub x y = x - y ∧ aluResult .mul x y = x * y ∧
      aluResult .div x y = x.sdiv y

/-- DIV truncates toward zero at every combination of signs; -2^31 / -1 gives the wrapped quotient; a zero divisor gives
0 and the only division-by-zero indication (spec/41_arithmetic.md section 2, DIV and its corner cases; D12). -/
def Obligations.DivTruncatesTowardZero : Prop :=
  ∀ x y : Word,
    (y = 0#32 → aluResult .div x y = 0#32 ∧ divzOf .div y = true) ∧
      (x = 0x80000000#32 → y = 0xFFFFFFFF#32 → aluResult .div x y = 0x80000000#32 ∧ divzOf .div y = false) ∧
      (y ≠ 0#32 → ¬(x = 0x80000000#32 ∧ y = 0xFFFFFFFF#32) →
        (aluResult .div x y).toInt.natAbs = x.toInt.natAbs / y.toInt.natAbs ∧
          ((aluResult .div x y).toInt < 0 ↔
            ((x.toInt < 0 ∧ 0 ≤ y.toInt) ∨ (0 ≤ x.toInt ∧ y.toInt < 0)) ∧ aluResult .div x y ≠ 0#32) ∧
          divzOf .div y = false)

/-! ### STORE -/

/-- spec/40_register_ops.md R100 and R101, spec/30_encoding.md R73: STORE writes the zero-extended literal at the entry
`wn` names, never at entry 0, advances `wn` by one with 21 going to 1, and reports the slot it wrote. -/
def Obligations.StoreWritesTheCursorSlot : Prop :=
  ∀ (lit : Literal) (s : State), 1 ≤ s.wn.toNat → s.wn.toNat ≤ 21 →
    ∃ t v, exec (.store lit) s = .next t ∧ v = lit.setWidth 32 ∧ v.toNat = lit.toNat ∧ v.toNat ≤ 1023 ∧
      (∀ i : Fin 22, i.val = s.wn.toNat → t.readNum i = v ∧ t.num[i] = v ∧ t.numWritten[i] = true) ∧
      t.num[0] = s.num[0] ∧
      t.wn.toNat = (if s.wn.toNat < 21 then s.wn.toNat + 1 else 1) ∧ 1 ≤ t.wn.toNat ∧ t.wn.toNat ≤ 21 ∧
      Reports s t (.stored v s.wn)

/-- The frame of STORE: every entry but the one `wn` names, the history bank and both its cursors, the marks of all
other entries, the record of unwritten reads and the input stay (spec/40_register_ops.md section 2: "STORE never
touches `hist`, `wh` or `rh`"). -/
def Obligations.StoreLeavesTheRestUnchanged : Prop :=
  ∀ (lit : Literal) (s t : State), exec (.store lit) s = .next t →
    (∀ i : Fin 22, i.val ≠ s.wn.toNat →
      t.num[i] = s.num[i] ∧ t.readNum i = s.readNum i ∧ t.numWritten[i] = s.numWritten[i]) ∧
      t.hist = s.hist ∧ t.histWritten = s.histWritten ∧ t.wh = s.wh ∧ t.rh = s.rh ∧
      t.unwrittenRead = s.unwrittenRead ∧ t.input = s.input

/-- spec/40_register_ops.md R107: storing a literal and loading the slot it went to returns it, and an instruction can
observe that exactly for the slots 1, 10 and 11, the writable ones a source field names. -/
def Obligations.StoreThenLoadReturnsTheLiteral : Prop :=
  (∀ (lit : Literal) (s : State) (i : Fin 22), i ≠ 0 → i.val = s.wn.toNat →
    ∃ t, storeNumber (lit.setWidth 32) s = .next t ∧ (t.readNum i).toNat = lit.toNat ∧ t.NumReadable i) ∧
    (∀ (lit : Literal) (s : State) (f : SrcField), 1 ≤ s.wn.toNat → decaddr f = s.wn.toNat → s.wh.toNat ≤ 9 →
      ∃ t u, exec (.store lit) s = .next t ∧ exec (.add f 0#5) t = .next u ∧
        u.out = some (.result (lit.setWidth 32) false) ∧ u.unwrittenRead = s.unwrittenRead) ∧
    ∀ n : Nat, 1 ≤ n → n ≤ 21 → ((∃ f : SrcField, decaddr f = n) ↔ n = 1 ∨ n = 10 ∨ n = 11)

/-- Stores from a cursor at slot 1, as after reset: the k-th store writes slot ((k - 1) mod 21) + 1, afterwards `wn` is
(k mod 21) + 1, the last 21 literals are what the slots hold, and exactly the slots reached are marked written
(spec/40_register_ops.md section 4 and spec/90_conflicts.md C4; spec/70_reset_and_hazards.md section 2 (a): "Reaching slot
10 or 11 therefore takes at least 10 or 11 STOREs"). -/
def Obligations.StoresWrapAroundTheNumberBank : Prop :=
  ∀ (lits : List Literal) (s : State), s.wn = 1#5 →
    ∃ t, execAll (lits.map Instr.store) s = .next t ∧ t.wn.toNat = lits.length % 21 + 1 ∧
      t.sink = s.sink ++ lits.mapIdx (fun k l => .stored (l.setWidth 32) (BitVec.ofNat 5 (k % 21 + 1))) ∧
      (∀ (k : Nat) (i : Fin 22) (h : k < lits.length), lits.length ≤ k + 21 → i.val = k % 21 + 1 →
        t.readNum i = lits[k].setWidth 32) ∧
      ∀ i : Fin 22, i ≠ 0 → (t.numWritten[i] = true ↔ s.numWritten[i] = true ∨ i.val ≤ lits.length)

/-! ### LASTH -/

/-- LASTH moves `rh` back by one, from 0 to 9, and reports the value of the entry it then names, which has been written
(spec/40_register_ops.md sections 1 and 3; the wrap is the spec's own decision D7). -/
def Obligations.LasthReportsTheEntryBefore : Prop :=
  ∀ (s : State) (j : Fin 10), j.val = (s.rh.toNat + 9) % 10 → s.histWritten[j] = true →
    ∃ t, exec .lasth s = .next t ∧ t.rh.toNat = j.val ∧ Reports s t (.lastValue s.hist[j]) ∧
      t.unwrittenRead = s.unwrittenRead

/-- LASTH of an entry not written since reset also completes: it moves `rh`, reports what the entry holds, and records
UnwrittenRead, the first record staying. That it goes on, where spec/60_exceptions.md section 2 has the model stop, is
the model's choice: log 1 and log 2. -/
def Obligations.LasthOfAnUnwrittenEntryIsRecorded : Prop :=
  ∀ (s : State) (j : Fin 10), j.val = (s.rh.toNat + 9) % 10 → s.histWritten[j] = false →
    ∃ t, exec .lasth s = .next t ∧ t.rh.toNat = j.val ∧ Reports s t (.lastValue s.hist[j]) ∧
      t.unwrittenRead = (if s.Clean then some ⟨.hist, j.val⟩ else s.unwrittenRead)

/-- The frame of LASTH: "LASTH changes neither `hist`, `wh`, `num` nor `wn`" (spec/40_register_ops.md section 3), nor a
mark, nor the input. -/
def Obligations.LasthLeavesTheRestUnchanged : Prop :=
  ∀ s t : State, exec .lasth s = .next t →
    t.num = s.num ∧ t.numWritten = s.numWritten ∧ t.wn = s.wn ∧ t.hist = s.hist ∧ t.histWritten = s.histWritten ∧
      t.wh = s.wh ∧ t.input = s.input ∧
      (∀ j : Fin 10, j.val = (s.rh.toNat + 9) % 10 → s.histWritten[j] = true → t.unwrittenRead = s.unwrittenRead)

/-- After N arithmetic results, N at most 10, N LASTHs report them in strict reverse chronological order, wherever `wh`
stands, and none of them reads an unwritten entry (spec/40_register_ops.md section 4, the history reverse-order law;
where `wh` wraps it rests on the spec's own decision D7). That the arithmetic completes where a source entry is
unwritten is the model's choice: log 1. -/
def Obligations.HistoryReadsInReverseOrder : Prop :=
  ∀ (is : List Instr) (s : State), is.length ≤ 10 → (∀ i ∈ is, writesHistory i = true) → s.wh.toNat ≤ 9 →
    ∃ (t u : State) (rs : List (Word × Bool)),
      execAll is s = .next t ∧ execAll (List.replicate is.length .lasth) t = .next u ∧ rs.length = is.length ∧
        t.sink = s.sink ++ rs.map (fun r => .result r.1 r.2) ∧
        u.sink = t.sink ++ rs.reverse.map (fun r => .lastValue r.1) ∧ u.unwrittenRead = t.unwrittenRead

/-- Ten LASTHs bring a legal `rh` back to where it was, so an eleventh reports what the first reported
(spec/40_register_ops.md section 3, corner cases; the spec's own decision D7). That the LASTHs complete where an entry
is unwritten, which spec/60_exceptions.md section 2 has a model stop at, is the model's choice: log 1 and log 2. -/
def Obligations.EleventhReadRepeatsTheFirst : Prop :=
  ∀ s : State, s.rh.toNat ≤ 9 →
    ∃ t1 t10 t11, exec .lasth s = .next t1 ∧ execAll (List.replicate 10 .lasth) s = .next t10 ∧
      exec .lasth t10 = .next t11 ∧ t10.rh = s.rh ∧ t10.hist = s.hist ∧ t11.out = t1.out

/-- From a block whose history bank is unwritten, as after reset, and after any instructions: let h be the number of
history writes and m the number of LASTHs since the last one, the next one counted. As long as no read has been of an
unwritten entry, the next LASTH reads a written one exactly when h ≥ 10 or m ≤ h
(spec/70_reset_and_hazards.md section 2 (b), derived there). In the runs that went on after such a read, which is the
model's choice (log 1), it reads a written one exactly when m, counted round the ten entries, is at most h. -/
def Obligations.LasthFindsAWrittenEntryExactlyWhen : Prop :=
  ∀ (is : List Instr) (s : State), s.CursorsLegal → s.rh = s.wh → (∀ j : Fin 10, s.histWritten[j] = false) → s.Clean →
    ∃ t, execAll is s = .next t ∧
      ∀ j : Fin 10, j.val = (t.rh.toNat + 9) % 10 →
        (t.histWritten[j] = true ↔ lasthCount 0 is % 10 + 1 ≤ historyWrites is) ∧
          (t.Clean → (t.histWritten[j] = true ↔ 10 ≤ historyWrites is ∨ lasthCount 0 is + 1 ≤ historyWrites is))

/-! ### ADD, SUB, MUL and DIV -/

/-- spec/40_register_ops.md R103: `recordHistory(v)` writes `v` at the entry `wh` names and marks it, advances `wh` with
9 going to 0, and sets `rh` to `wh`. -/
def Obligations.RecordHistoryWritesAndResynchronises : Prop :=
  ∀ (v : Word) (s : State), s.wh.toNat ≤ 9 →
    ∃ t, recordHistory v s = .next t ∧
      (∀ j : Fin 10, j.val = s.wh.toNat → t.hist[j] = v ∧ t.histWritten[j] = true) ∧
      (∀ j : Fin 10, j.val ≠ s.wh.toNat → t.hist[j] = s.hist[j] ∧ t.histWritten[j] = s.histWritten[j]) ∧
      (s.wh.toNat < 9 → t.wh.toNat = s.wh.toNat + 1) ∧ (s.wh.toNat = 9 → t.wh.toNat = 0) ∧ t.rh = t.wh

/-- ADD with both sources in range records and reports the sum, and reads of written entries record no fault
(spec/41_arithmetic.md sections 1 and 2, ADD). That it completes where an entry is unwritten is the model's choice:
log 1. -/
def Obligations.AddRecordsTheSum : Prop :=
  ∀ (f1 f2 : SrcField) (s : State) (i j : Fin 22), decaddr f1 = i.val → decaddr f2 = j.val → s.wh.toNat ≤ 9 →
    ∃ t, exec (.add f1 f2) s = .next t ∧ RecordsResult s t (s.readNum i + s.readNum j) false ∧
      (s.NumReadable i → s.NumReadable j → t.unwrittenRead = s.unwrittenRead)

/-- SUB with both sources in range records and reports `sourceOne` minus `sourceTwo` (spec/41_arithmetic.md sections 1
and 2, SUB). That it completes where an entry is unwritten is the model's choice: log 1. -/
def Obligations.SubRecordsTheDifference : Prop :=
  ∀ (f1 f2 : SrcField) (s : State) (i j : Fin 22), decaddr f1 = i.val → decaddr f2 = j.val → s.wh.toNat ≤ 9 →
    ∃ t, exec (.sub f1 f2) s = .next t ∧ RecordsResult s t (s.readNum i - s.readNum j) false ∧
      (s.NumReadable i → s.NumReadable j → t.unwrittenRead = s.unwrittenRead)

/-- MUL with both sources in range records and reports the low 32 bits of the product (spec/41_arithmetic.md sections 1
and 2, MUL). That it completes where an entry is unwritten is the model's choice: log 1. -/
def Obligations.MulRecordsTheProduct : Prop :=
  ∀ (f1 f2 : SrcField) (s : State) (i j : Fin 22), decaddr f1 = i.val → decaddr f2 = j.val → s.wh.toNat ≤ 9 →
    ∃ t, exec (.mul f1 f2) s = .next t ∧ RecordsResult s t (s.readNum i * s.readNum j) false ∧
      (s.NumReadable i → s.NumReadable j → t.unwrittenRead = s.unwrittenRead)

/-- DIV with both sources in range and a nonzero divisor records and reports the quotient truncated toward zero, its
exact value reduced modulo 2^32 (spec/41_arithmetic.md sections 1 and 2, DIV). That it completes where an entry is
unwritten is the model's choice: log 1. -/
def Obligations.DivRecordsTheQuotient : Prop :=
  ∀ (f1 f2 : SrcField) (s : State) (i j : Fin 22), decaddr f1 = i.val → decaddr f2 = j.val → s.wh.toNat ≤ 9 →
    s.readNum j ≠ 0#32 →
    ∃ t, exec (.div f1 f2) s = .next t ∧
      RecordsResult s t (BitVec.ofInt 32 ((s.readNum i).toInt.tdiv (s.readNum j).toInt)) false ∧
      (s.NumReadable i → s.NumReadable j → t.unwrittenRead = s.unwrittenRead)

/-- spec/41_arithmetic.md section 2, Division by zero (one record with `divz` is the spec's own decision D10): DIV with
divisor 0 writes 0 to `hist[wh]`, advances `wh`, resynchronises `rh` and reports RESULT 0 with `divz`, 0 / 0 included;
`div A, r0` always takes this path. -/
def Obligations.DivideByZeroRecordsZero : Prop :=
  (∀ (f1 f2 : SrcField) (s : State) (i j : Fin 22), decaddr f1 = i.val → decaddr f2 = j.val → s.wh.toNat ≤ 9 →
    s.NumReadable i → s.NumReadable j → s.readNum j = 0#32 →
    ∃ t, exec (.div f1 f2) s = .next t ∧ RecordsResult s t 0#32 true ∧ t.unwrittenRead = s.unwrittenRead) ∧
    ∀ (f1 : SrcField) (s : State) (i : Fin 22), decaddr f1 = i.val → s.wh.toNat ≤ 9 → s.NumReadable i →
      ∃ t, exec (.div f1 0b00000#5) s = .next t ∧ RecordsResult s t 0#32 true ∧ t.unwrittenRead = s.unwrittenRead

/-- The frame of ADD, SUB, MUL and DIV: the number bank, its marks and its cursor, every history entry but the one `wh`
names, and the input stay; a report of an out-of-range source leaves the whole block (spec/30_encoding.md section 4,
"Arithmetic writes `hist`, `wh` and `rh` and nothing else"). -/
def Obligations.ArithmeticLeavesTheRestUnchanged : Prop :=
  ∀ (i : Instr) (s t : State), isArith i = true → exec i s = .next t →
    t.num = s.num ∧ t.numWritten = s.numWritten ∧ t.wn = s.wn ∧ t.input = s.input ∧
      (∀ k : Fin 10, k.val ≠ s.wh.toNat → t.hist[k] = s.hist[k] ∧ t.histWritten[k] = s.histWritten[k]) ∧
      (writesHistory i = false → SameBlock s t)

/-- A source field whose index is above 21 is reported with its number and its index, `sourceOne` first, and the state
stays; this takes no read and no write (spec/60_exceptions.md section 2; the spec's own decision D8). -/
def Obligations.OutOfRangeSourceIsReported : Prop :=
  ∀ (f1 f2 : SrcField) (s : State) (i : Instr),
    (i = .add f1 f2 ∨ i = .sub f1 f2 ∨ i = .mul f1 f2 ∨ i = .div f1 f2) →
    (21 < decaddr f1 →
      ∃ t, exec i s = .next t ∧ SameBlock s t ∧ Reports s t (.addrErr .one (decaddr f1))) ∧
      (decaddr f1 ≤ 21 → 21 < decaddr f2 →
        ∃ t, exec i s = .next t ∧ SameBlock s t ∧ Reports s t (.addrErr .two (decaddr f2)))

/-- An arithmetic instruction that reads an entry not written since reset completes and records UnwrittenRead, of
`sourceOne` before `sourceTwo`, the first record staying (the order is spec/60_exceptions.md section 2; that it goes on
is the model's choice: log 1 and log 2). -/
def Obligations.UnwrittenOperandIsRecorded : Prop :=
  ∀ (f1 f2 : SrcField) (s : State) (a b : Fin 22) (i : Instr) (op : AluOp),
    (i = .add f1 f2 ∧ op = .add ∨ i = .sub f1 f2 ∧ op = .sub ∨ i = .mul f1 f2 ∧ op = .mul ∨ i = .div f1 f2 ∧ op = .div) →
    decaddr f1 = a.val → decaddr f2 = b.val → s.wh.toNat ≤ 9 → s.Clean →
    ∃ t, exec i s = .next t ∧
      RecordsResult s t (aluResult op (s.readNum a) (s.readNum b)) (divzOf op (s.readNum b)) ∧
      t.unwrittenRead =
        (if ¬s.NumReadable a then some ⟨.num, a.val⟩
        else if ¬s.NumReadable b then some ⟨.num, b.val⟩
        else none)

/-- spec/10_state.md R23: entry 0 reads 0 in every state, reset's among them; no instruction writes it; the number write
cursor never takes the value 0. -/
def Obligations.RegisterZeroIsConstant : Prop :=
  (∀ s : State, s.readNum 0 = 0#32) ∧ State.reset.readNum 0 = 0#32 ∧ State.reset.wn ≠ 0#5 ∧
    ∀ (i : Instr) (s t : State), exec i s = .next t →
      t.num[0] = s.num[0] ∧ t.readNum 0 = 0#32 ∧ (s.wn ≠ 0#5 → t.wn ≠ 0#5)

/-- Where no run from reset comes: a write cursor outside its legal range stops the instruction that would write through
it (the entry it names does not exist, or is entry 0: spec/20_memory.md section 1; that the model stops is its choice:
log 5). -/
def Obligations.IllegalCursorStops : Prop :=
  (∀ (lit : Literal) (s : State), s.wn.toNat = 0 ∨ 21 < s.wn.toNat →
    exec (.store lit) s = .fault (.numCursorIllegal s.wn)) ∧
    ∀ (i : Instr) (s : State), writesHistory i = true → 9 < s.wh.toNat →
      exec i s = .fault (.histCursorIllegal s.wh)

/-! ### The step -/

/-- When the ports submit a word that decodes to an instruction, the step is that instruction's meaning, with the ports
consumed (spec/30_encoding.md section 4; log 3). -/
def Obligations.StepRunsTheDecodedInstruction : Prop :=
  ∀ (s : State) (p : InPorts) (rest : List InPorts) (i : Instr), s.input = p :: rest → p.rst = false → p.valid = true →
    p.lenOk = true → decode p.word = .instr i → step s = exec i { s with input := rest }

/-- spec/60_exceptions.md section 2 (`in_len_ok` is the spec's own decision D2): with `in_len_ok` = 0, whatever the word,
LEN_ERR (code 1, "Invalid Instruction Length") and no state change; a string of any length but 32 is presented so
(log 8). -/
def Obligations.WrongLengthIsReported : Prop :=
  (∀ (s : State) (p : InPorts) (rest : List InPorts), s.input = p :: rest → p.rst = false → p.valid = true →
    p.lenOk = false →
    ∃ t, step s = .next t ∧ SameBlock s t ∧ Reports s t .lenErr ∧ t.input = rest ∧ t.outPorts.kind = 1#3) ∧
    Status.lenErr.lines = ["Invalid Instruction Length"] ∧
    ∀ bits : List Bool, bits.length ≠ 32 → (frame bits).Submits ∧ (frame bits).lenOk = false

/-- spec/60_exceptions.md R145: an opcode outside the three known values gives OPC_ERR (code 4), whatever the other
fields hold, and no state change. -/
def Obligations.IllegalOpcodeIsReported : Prop :=
  ∀ (s : State) (p : InPorts) (rest : List InPorts), s.input = p :: rest → p.rst = false → p.valid = true →
    p.lenOk = true → p.word.extractLsb' 26 6 ≠ 0b000000#6 → p.word.extractLsb' 26 6 ≠ 0b000001#6 →
    p.word.extractLsb' 26 6 ≠ 0b100001#6 →
    ∃ t, step s = .next t ∧ SameBlock s t ∧ Reports s t .opcErr ∧ t.input = rest ∧ t.outPorts.kind = 4#3

/-- spec/60_exceptions.md R146: under the arithmetic opcode a function code outside the four gives FUNCT_ERR (code 5), no
state change and no history write, whatever the source fields name: it takes priority over ADDR_ERR. -/
def Obligations.IllegalFunctionCodeIsReported : Prop :=
  ∀ (s : State) (p : InPorts) (rest : List InPorts), s.input = p :: rest → p.rst = false → p.valid = true →
    p.lenOk = true → p.word.extractLsb' 26 6 = 0b000000#6 → p.word.extractLsb' 0 6 ≠ 0b100000#6 →
    p.word.extractLsb' 0 6 ≠ 0b100010#6 → p.word.extractLsb' 0 6 ≠ 0b011000#6 → p.word.extractLsb' 0 6 ≠ 0b011010#6 →
    ∃ t, step s = .next t ∧ SameBlock s t ∧ Reports s t .functErr ∧ t.input = rest ∧ t.outPorts.kind = 5#3

/-- One submission reports only the first condition that applies: LEN_ERR; STORE or LASTH by opcode; OPC_ERR; FUNCT_ERR;
ADDR_ERR on `sourceOne`, then on `sourceTwo`; else RESULT (spec/60_exceptions.md section 2, priority; the place of
ADDR_ERR is the spec's own decision D8; that an unwritten read still reports RESULT is the model's choice: log 1). -/
def Obligations.FirstMatchDecidesTheStatus : Prop :=
  ∀ (s : State) (p : InPorts) (rest : List InPorts), s.input = p :: rest → p.rst = false → p.valid = true →
    1 ≤ s.wn.toNat → s.wn.toNat ≤ 21 → s.wh.toNat ≤ 9 →
    ∃ t r, step s = .next t ∧ Reports s t r ∧
      (if p.lenOk = false then r = .lenErr
      else if opcOf p.word = 0b000001#6 then r = .stored ((litOf p.word).setWidth 32) s.wn
      else if opcOf p.word = 0b100001#6 then ∃ v, r = .lastValue v
      else if opcOf p.word ≠ 0b000000#6 then r = .opcErr
      else if ¬(fnOf p.word = 0b100000#6 ∨ fnOf p.word = 0b100010#6 ∨ fnOf p.word = 0b011000#6 ∨
          fnOf p.word = 0b011010#6) then r = .functErr
      else if 21 < decaddr (f1Of p.word) then r = .addrErr .one (decaddr (f1Of p.word))
      else if 21 < decaddr (f2Of p.word) then r = .addrErr .two (decaddr (f2Of p.word))
      else ∃ v z, r = .result v z ∧ (z = true → fnOf p.word = 0b011010#6))

/-- Every accepted submission that completes emits exactly one status record (spec/60_exceptions.md section 1; that a
submission which reads an unwritten entry completes is the model's choice: log 1). -/
def Obligations.OneStatusPerSubmission : Prop :=
  ∀ (s t : State) (p : InPorts) (rest : List InPorts), s.input = p :: rest → p.rst = false → p.valid = true →
    step s = .next t → ∃ r, Reports s t r ∧ t.input = rest

/-- A step that shows a diagnostic leaves every bank entry, mark and cursor as it was, and the next submission is accepted
as usual (spec/60_exceptions.md section 2: "the state is exactly what it was before the submission"). -/
def Obligations.DiagnosticsChangeNoState : Prop :=
  ∀ (s t : State) (p : InPorts) (rest : List InPorts) (r : Status), s.input = p :: rest → step s = .next t →
    t.out = some r → r.isDiagnostic = true → SameBlock s t ∧ t.input = rest

/-- Without reset, only a submitted STORE changes the number bank or `wn`, only a submitted arithmetic instruction the
history bank or `wh`, and only LASTH or arithmetic `rh` (spec/10_state.md sections 2, 3 and 5; spec/30_encoding.md
section 4). -/
def Obligations.OnlyTheirInstructionsWriteEachBank : Prop :=
  ∀ (s t : State) (p : InPorts) (rest : List InPorts), s.input = p :: rest → p.rst = false → step s = .next t →
    (t.num ≠ s.num ∨ t.numWritten ≠ s.numWritten ∨ t.wn ≠ s.wn → ∃ lit, p.Runs (.store lit)) ∧
      (t.hist ≠ s.hist ∨ t.histWritten ≠ s.histWritten ∨ t.wh ≠ s.wh →
        ∃ i, writesHistory i = true ∧ p.Runs i) ∧
      (t.rh ≠ s.rh → p.Runs .lasth ∨ ∃ i, writesHistory i = true ∧ p.Runs i)

/-- spec/10_state.md R29: after every submission that writes the history bank `rh` is `wh`; otherwise only LASTH changes
`rh`, and only arithmetic changes `wh`. -/
def Obligations.HistoryWriteResynchronises : Prop :=
  ∀ (s t : State) (p : InPorts) (rest : List InPorts), s.input = p :: rest → p.rst = false → step s = .next t →
    ((∃ i, writesHistory i = true ∧ p.Runs i) → t.rh = t.wh) ∧
      (t.hist ≠ s.hist → t.rh = t.wh) ∧
      (¬(∃ i, writesHistory i = true ∧ p.Runs i) → t.rh ≠ s.rh → p.Runs .lasth) ∧
      (t.wh ≠ s.wh → ∃ i, isArith i = true ∧ p.Runs i)

/-- With `rst`, the cursors and the marks take their reset values whatever the state held, a submission presented with it
is ignored, and no status is emitted (spec/70_reset_and_hazards.md section 1, the spec's own decision D14; that the
record of unwritten reads is cleared and the sink's record stays is the model's choice: log 6). -/
def Obligations.ResetPortLoadsResetValues : Prop :=
  ∀ (s : State) (p : InPorts) (rest : List InPorts), s.input = p :: rest → p.rst = true →
    ∃ t, step s = .next t ∧ t.wn = 1#5 ∧ t.wh = 0#4 ∧ t.rh = 0#4 ∧
      (∀ i : Fin 22, t.numWritten[i] = decide (i = 0)) ∧ (∀ j : Fin 10, t.histWritten[j] = false) ∧
      t.readNum 0 = 0#32 ∧ t.unwrittenRead = none ∧ t.out = none ∧ t.sink = s.sink ∧ t.input = rest

/-- Right after reset: `wn` 1, `wh` 0, `rh` 0, every entry but `num[0]` marked unwritten, `num[0]` reads 0, no status
(spec/10_state.md section 7, the spec's own decisions D5 and D6). -/
def Obligations.ResetStateHasResetValues : Prop :=
  State.reset.wn = 1#5 ∧ State.reset.wh = 0#4 ∧ State.reset.rh = 0#4 ∧
    (∀ i : Fin 22, State.reset.numWritten[i] = decide (i = 0)) ∧
    (∀ j : Fin 10, State.reset.histWritten[j] = false) ∧ State.reset.readNum 0 = 0#32 ∧ State.reset.Clean ∧
    State.reset.out = none

/-- Where no submission is presented, the block keeps its state and shows no status (spec/60_exceptions.md section 1,
kind 0; that the end of the host's input is no submission is the model's choice: log 3). -/
def Obligations.NothingPresentedNothingChanges : Prop :=
  ∀ s : State,
    (s.input = [] ∨ ∃ p rest, s.input = p :: rest ∧ p.rst = false ∧ p.valid = false) →
    ∃ t, step s = .next t ∧ SameBlock s t ∧ t.out = none ∧ t.sink = s.sink ∧ t.input = s.input.tail ∧
      t.outPorts.valid = false ∧ t.outPorts.kind = 0#3

/-- Presenting the words of a sequence one a step runs the sequence (spec/20_memory.md section 3: each submission reads
the state that all earlier submissions left; log 3). -/
def Obligations.StepsRunTheSequence : Prop :=
  ∀ (is : List Instr) (s : State) (rest : List InPorts),
    Sys2Proof.core.run is.length { s with input := is.map (fun i => present (encode i)) ++ rest } =
      execAll is { s with input := rest }

/-! ### The outputs -/

/-- The output ports of each status kind: its code, its fields, every other field 0, and a decoded index that fits its
port (spec/60_exceptions.md section 1, the spec's own decision D9). -/
def Obligations.OutputPortsOfEachStatus : Prop :=
  Status.lenErr.ports = ⟨true, 1#3, 0#32, 0#5, 0#2, 0#14, false⟩ ∧
    (∀ v n, (Status.stored v n).ports = ⟨true, 2#3, v, n, 0#2, 0#14, false⟩) ∧
    (∀ v, (Status.lastValue v).ports = ⟨true, 3#3, v, 0#5, 0#2, 0#14, false⟩) ∧
    Status.opcErr.ports = ⟨true, 4#3, 0#32, 0#5, 0#2, 0#14, false⟩ ∧
    Status.functErr.ports = ⟨true, 5#3, 0#32, 0#5, 0#2, 0#14, false⟩ ∧
    (∀ v z, (Status.result v z).ports = ⟨true, 6#3, v, 0#5, 0#2, 0#14, z⟩) ∧
    (∀ n, (Status.addrErr .one n).ports = ⟨true, 7#3, 0#32, 0#5, 1#2, BitVec.ofNat 14 n, false⟩) ∧
    (∀ n, (Status.addrErr .two n).ports = ⟨true, 7#3, 0#32, 0#5, 2#2, BitVec.ofNat 14 n, false⟩) ∧
    ∀ f : SrcField, (BitVec.ofNat 14 (decaddr f)).toNat = decaddr f

/-- The lines the sink prints for each of the seven statuses, at every value, and the signed decimal in them: a leading
`-` exactly when negative, then the decimal digits of the magnitude; with the spec's examples
(spec/60_exceptions.md sections 1 and 4; two lines for a division by zero are the spec's own decision D10, the ADDR_ERR
text D8, the texts STORE_TEXT and DIVZ_TEXT its parameters: log 7). -/
def Obligations.LinesOfEachStatus : Prop :=
  Status.lenErr.lines = ["Invalid Instruction Length"] ∧
    (∀ v n, (Status.stored v n).lines = [Config.storeText v n]) ∧
    (∀ v, (Status.lastValue v).lines = ["Last Calculated Value: " ++ decimalText v]) ∧
    Status.opcErr.lines = ["Invalid OPCODE"] ∧
    Status.functErr.lines = ["Invalid Function Code"] ∧
    (∀ v, (Status.result v false).lines = ["Calculated Result: " ++ decimalText v]) ∧
    (∀ v, (Status.result v true).lines = [Config.divzText, "Calculated Result: " ++ decimalText v]) ∧
    (∀ src n, (Status.addrErr src n).lines = ["Invalid Register Address"]) ∧
    (∀ v : Word, decimalText v = (if v.toInt < 0 then "-" else "") ++ String.ofList (Nat.toDigits 10 v.toInt.natAbs)) ∧
    (Status.result 15#32 false).lines = ["Calculated Result: 15"] ∧
    (Status.result 0xFFFFFFFB#32 false).lines = ["Calculated Result: -5"] ∧
    (Status.result 0#32 true).lines = [Config.divzText, "Calculated Result: 0"] ∧
    (Status.lastValue 0xFFFFFFFB#32).lines = ["Last Calculated Value: -5"]

/-! ### Invariants -/

/-- Every step keeps every cursor in its legal range (spec/10_state.md section 5, derived there). -/
def Obligations.CursorsStayLegal : Prop := ∀ s t : State, s.CursorsLegal → step s = .next t → t.CursorsLegal

/-- The cursors are legal after reset. -/
def Obligations.CursorsAreLegalAtReset : Prop := State.reset.CursorsLegal

/-- Every step keeps the value ranges: a number-bank entry written since reset holds 0 .. 1023, and, while no unwritten
entry has been read, a history entry written since reset holds -1023 .. 1046529 (spec/10_state.md section 2 and
spec/41_arithmetic.md section 3, derived there). It rests on no value that reset leaves in an entry. -/
def Obligations.ValuesStayBounded : Prop := ∀ s t : State, s.ValuesBounded → step s = .next t → t.ValuesBounded

/-- The value ranges hold after reset. -/
def Obligations.ValuesAreBoundedAtReset : Prop := State.reset.ValuesBounded

/-- A recorded UnwrittenRead stays through every step but a reset: "no later submission clears the fault"
(spec/60_exceptions.md section 2; that it is a record and that reset clears it is the model's choice: log 2 and
log 6). -/
def Obligations.UnwrittenReadRecordStays : Prop :=
  ∀ (s t : State) (u : UnwrittenRead), s.unwrittenRead = some u → step s = .next t →
    t.unwrittenRead = some u ∨ ∃ p rest, s.input = p :: rest ∧ p.rst = true

/-! ### What cannot be observed -/

/-- The marks and the record of unwritten reads never reach the hardware: states that differ in them alone step to
states that differ in them alone, or stop for the same reason (spec/10_state.md section 6: "The mark is model
bookkeeping, not hardware state"). It holds because an unwritten read completes and is recorded, which is the model's
choice: log 1 and log 2; where a model stops at it, as spec/60_exceptions.md section 2 asks, the two would part. -/
def Obligations.MarksDoNotReachTheHardware : Prop :=
  ∀ s s' : State, SameHardware s s' → OutcomeRel SameHardware (step s) (step s')

/-- The number-bank entries 2 .. 9 and 12 .. 21 never reach a status, a cursor, the history bank or a readable entry
(spec/10_state.md section 2: only `num[0]`, `num[1]`, `num[10]` and `num[11]` can be read by any instruction). -/
def Obligations.UnnameableEntriesReachNothing : Prop :=
  ∀ s s' : State, SameReadable s s' → OutcomeRel SameReadable (step s) (step s')

/-- Where in the history bank its cursors started cannot be observed: states equal up to a rotation of the bank show the
same statuses and stay so (the spec's own decision D6: "the start index of the history bank cannot be observed"). -/
def Obligations.HistoryStartIsUnobservable : Prop :=
  ∀ s s' : State, HistoryRotated s s' → OutcomeRel HistoryRotated (step s) (step s')

/-! ### The model fault UnwrittenRead -/

/-- `specStep`, from a clean state: a LASTH of an unwritten entry raises UnwrittenRead of that entry; an arithmetic
instruction with both sources in range raises it of `sourceOne` if that is unwritten, else of `sourceTwo` if that is;
any other instruction, and any diagnostic, is as `step` has it (spec/60_exceptions.md section 2, the spec's own decision
D5; that the fault is raised by a step beside `step` is the model's choice: log 10). -/
def Obligations.UnwrittenReadRaisesTheModelFault : Prop :=
  ∀ (s : State) (p : InPorts) (rest : List InPorts), s.input = p :: rest → p.Submits → s.wh.toNat ≤ 9 → s.Clean →
    (∀ j : Fin 10, p.Runs .lasth → j.val = (s.rh.toNat + 9) % 10 →
      specStep s = if s.histWritten[j] = true then step s else .fault (.unwrittenRead ⟨.hist, j.val⟩)) ∧
      (∀ (i : Instr) (f1 f2 : SrcField) (a b : Fin 22), p.Runs i →
        (i = .add f1 f2 ∨ i = .sub f1 f2 ∨ i = .mul f1 f2 ∨ i = .div f1 f2) → decaddr f1 = a.val → decaddr f2 = b.val →
        specStep s =
          if ¬s.NumReadable a then .fault (.unwrittenRead ⟨.num, a.val⟩)
          else if ¬s.NumReadable b then .fault (.unwrittenRead ⟨.num, b.val⟩)
          else step s) ∧
      (¬p.Runs .lasth → ¬(∃ i, writesHistory i = true ∧ p.Runs i) → specStep s = step s)

/-- A faulted state is not final: without reset every submission, and every step at all, faults again with the same
UnwrittenRead ("no later submission clears the fault", spec/60_exceptions.md section 2); a reset clears it, which is the
model's choice: log 6. -/
def Obligations.FaultedStateIsNotFinal : Prop :=
  ∀ (s : State) (u : UnwrittenRead), s.CursorsLegal → s.unwrittenRead = some u →
    ((∀ p rest, s.input = p :: rest → p.rst = false) → specStep s = .fault (.unwrittenRead u)) ∧
      ∀ p rest, s.input = p :: rest → p.rst = true → ∃ t, specStep s = .next t ∧ t.Clean

/-- The runs that the model fault does not end are the clean runs of the core: a completed run of `specCore` is a run of
the core to a clean state; conversely, where no reset comes in between, a run of the core to a clean state is one of
`specCore`; and the core's own step never raises the fault (spec/60_exceptions.md section 4, the end of a run, and
section 2; log 10). -/
def Obligations.SpecRunsAreTheCleanRuns : Prop :=
  (∀ (s : State) (u : UnwrittenRead), step s ≠ .fault (.unwrittenRead u)) ∧
    ∀ (n : Nat) (s t : State), s.Clean →
      (specCore.run n s = .next t → Sys2Proof.core.run n s = .next t ∧ t.Clean) ∧
        ((∀ p ∈ s.input, p.rst = false) → Sys2Proof.core.run n s = .next t → t.Clean → specCore.run n s = .next t)
end

