-- ==== Sys2Proof/Laws/Decode.lean ====
section
/-! SUPPORT. The field split and the packing of fields are inverse to each other. -/

namespace Sys2Proof

section
variable (opc : BitVec 6) (f1 f2 : SrcField) (lit : Literal) (fn : BitVec 6)

/-- One bit of a packed word, field by field (spec/30_encoding.md R71). -/
theorem packFields_getLsbD (n : Nat) :
    (packFields opc f1 f2 lit fn).getLsbD n =
      if n < 6 then fn.getLsbD n
      else if n < 16 then lit.getLsbD (n - 6)
      else if n < 21 then f2.getLsbD (n - 16)
      else if n < 26 then f1.getLsbD (n - 21)
      else opc.getLsbD (n - 26) := by
  unfold packFields
  simp only [BitVec.getLsbD_append]
  by_cases h1 : n < 6
  · rw [if_pos h1, if_pos h1]
  rw [if_neg h1, if_neg h1]
  by_cases h2 : n < 16
  · rw [if_pos h2, if_pos (by omega)]
  rw [if_neg h2, if_neg (by omega)]
  by_cases h3 : n < 21
  · rw [if_pos h3, if_pos (by omega), show n - 6 - 10 = n - 16 by omega]
  rw [if_neg h3, if_neg (by omega)]
  by_cases h4 : n < 26
  · rw [if_pos h4, if_pos (by omega), show n - 6 - 10 - 5 = n - 21 by omega]
  rw [if_neg h4, if_neg (by omega), show n - 6 - 10 - 5 - 5 = n - 26 by omega]

@[simp] theorem opcOf_packFields : opcOf (packFields opc f1 f2 lit fn) = opc := by
  refine BitVec.eq_of_getLsbD_eq fun n hn => ?_
  rw [opcOf, BitVec.getLsbD_extractLsb', packFields_getLsbD]
  repeat rw [if_neg (by omega)]
  rw [show 26 + n - 26 = n by omega, decide_eq_true hn, Bool.true_and]

@[simp] theorem f1Of_packFields : f1Of (packFields opc f1 f2 lit fn) = f1 := by
  refine BitVec.eq_of_getLsbD_eq fun n hn => ?_
  rw [f1Of, BitVec.getLsbD_extractLsb', packFields_getLsbD]
  repeat rw [if_neg (by omega)]
  rw [if_pos (by omega), show 21 + n - 21 = n by omega, decide_eq_true hn, Bool.true_and]

@[simp] theorem f2Of_packFields : f2Of (packFields opc f1 f2 lit fn) = f2 := by
  refine BitVec.eq_of_getLsbD_eq fun n hn => ?_
  rw [f2Of, BitVec.getLsbD_extractLsb', packFields_getLsbD]
  repeat rw [if_neg (by omega)]
  rw [if_pos (by omega), show 16 + n - 16 = n by omega, decide_eq_true hn, Bool.true_and]

@[simp] theorem litOf_packFields : litOf (packFields opc f1 f2 lit fn) = lit := by
  refine BitVec.eq_of_getLsbD_eq fun n hn => ?_
  rw [litOf, BitVec.getLsbD_extractLsb', packFields_getLsbD]
  rw [if_neg (by omega), if_pos (by omega), show 6 + n - 6 = n by omega, decide_eq_true hn, Bool.true_and]

@[simp] theorem fnOf_packFields : fnOf (packFields opc f1 f2 lit fn) = fn := by
  refine BitVec.eq_of_getLsbD_eq fun n hn => ?_
  rw [fnOf, BitVec.getLsbD_extractLsb', packFields_getLsbD]
  rw [if_pos (by omega), Nat.zero_add, decide_eq_true hn, Bool.true_and]

end

/-- A word is the packing of its own fields (spec/30_encoding.md R71). -/
theorem packFields_fields (w : BitVec 32) : packFields (opcOf w) (f1Of w) (f2Of w) (litOf w) (fnOf w) = w := by
  refine BitVec.eq_of_getLsbD_eq fun n hn => ?_
  rw [packFields_getLsbD]
  simp only [opcOf, f1Of, f2Of, litOf, fnOf, BitVec.getLsbD_extractLsb']
  by_cases h1 : n < 6
  · simp [h1]
  by_cases h2 : n < 16
  · simp [h1, h2, show n - 6 < 10 by omega, show 6 + (n - 6) = n by omega]
  by_cases h3 : n < 21
  · simp [h1, h2, h3, show n - 16 < 5 by omega, show 16 + (n - 16) = n by omega]
  by_cases h4 : n < 26
  · simp [h1, h2, h3, h4, show n - 21 < 5 by omega, show 21 + (n - 21) = n by omega]
  · simp [h1, h2, h3, h4, show n - 26 < 6 by omega, show 26 + (n - 26) = n by omega]

/-! ### What the decoder answers, class by class (spec/30_encoding.md R76 to R78) -/

section
variable {w : BitVec 32}

theorem decode_store (h : opcOf w = opcStore) : decode w = .instr (.store (litOf w)) := by
  rw [decode, if_pos h]

theorem decode_lasth (h : opcOf w = opcLasth) : decode w = .instr .lasth := by
  rw [decode, h, if_neg (by decide), if_pos rfl]

theorem decode_badOpcode (h : opcOf w ≠ opcStore) (h1 : opcOf w ≠ opcLasth) (h2 : opcOf w ≠ opcArith) :
    decode w = .badOpcode := by
  rw [decode, if_neg h, if_neg h1, if_pos h2]

/-- Under the arithmetic opcode the function code decides. -/
theorem decode_arith (h : opcOf w = opcArith) :
    decode w =
      if fnOf w = fnAdd then .instr (.add (f1Of w) (f2Of w))
      else if fnOf w = fnSub then .instr (.sub (f1Of w) (f2Of w))
      else if fnOf w = fnMul then .instr (.mul (f1Of w) (f2Of w))
      else if fnOf w = fnDiv then .instr (.div (f1Of w) (f2Of w))
      else .badFunction := by
  rw [decode, h, if_neg (by decide), if_neg (by decide), if_neg (by decide)]

end

end Sys2Proof
end

