-- ==== Sys2Proof/Laws/Operands.lean ====
section
/-! SUPPORT. What the operand forms and the cursor arithmetic answer. -/

namespace Sys2Proof.Machine

/-- A decoded index fits in the 14 bits of `out_index` (spec/60_exceptions.md R140). -/
theorem decaddr_le (f : SrcField) : decaddr f ≤ 11111 := by
  have h (b : Bool) : b.toNat ≤ 1 := Bool.toNat_le b
  have h4 := h (f.getLsbD 4)
  have h3 := h (f.getLsbD 3)
  have h2 := h (f.getLsbD 2)
  have h1 := h (f.getLsbD 1)
  have h0 := h (f.getLsbD 0)
  unfold decaddr
  omega

/-- `numIndex` answers exactly the entry that bears the decoded index. -/
theorem numIndex_eq_some {f : SrcField} {i : Fin 22} : numIndex f = some i ↔ decaddr f = i.val := by
  unfold numIndex
  constructor
  · intro h
    split at h
    · cases h; rfl
    · cases h
  · intro h
    have hi : decaddr f ≤ 21 := by omega
    rw [dif_pos hi]
    exact congrArg some (Fin.ext h)

/-- `numIndex` answers nothing exactly where the decoded index is above 21. -/
theorem numIndex_eq_none {f : SrcField} : numIndex f = none ↔ 21 < decaddr f := by
  unfold numIndex
  split <;> simp <;> omega

/-- `numSlot` answers the entry a legal write cursor names. -/
theorem numSlot_eq_some {c : BitVec 5} {i : Fin 22} : numSlot c = some i ↔ c.toNat = i.val ∧ i ≠ 0 := by
  unfold numSlot
  constructor
  · intro h
    split at h
    · cases h
      exact ⟨rfl, fun h0 => by have := congrArg Fin.val h0; simp at this; omega⟩
    · cases h
  · rintro ⟨h, h0⟩
    have h1 : i.val ≠ 0 := fun hv => h0 (Fin.ext hv)
    have hi : 1 ≤ c.toNat ∧ c.toNat ≤ 21 := by omega
    rw [dif_pos hi]
    exact congrArg some (Fin.ext h)

/-- A legal write cursor names an entry. -/
theorem numSlot_legal {c : BitVec 5} (h : 1 ≤ c.toNat ∧ c.toNat ≤ 21) :
    ∃ i : Fin 22, numSlot c = some i ∧ i.val = c.toNat ∧ i ≠ 0 := by
  refine ⟨⟨c.toNat, by omega⟩, ?_, rfl, ?_⟩
  · unfold numSlot; rw [dif_pos h]
  · intro h0
    have := congrArg Fin.val h0
    simp at this
    omega

/-- An illegal write cursor names none. -/
theorem numSlot_eq_none {c : BitVec 5} : numSlot c = none ↔ ¬(1 ≤ c.toNat ∧ c.toNat ≤ 21) := by
  unfold numSlot
  split <;> simp_all

/-- `histSlot` answers the entry a legal history write cursor names. -/
theorem histSlot_eq_some {c : BitVec 4} {j : Fin 10} : histSlot c = some j ↔ c.toNat = j.val := by
  unfold histSlot
  constructor
  · intro h
    split at h
    · cases h; rfl
    · cases h
  · intro h
    have hj : c.toNat ≤ 9 := by omega
    rw [dif_pos hj]
    exact congrArg some (Fin.ext h)

/-- A legal history write cursor names an entry. -/
theorem histSlot_legal {c : BitVec 4} (h : c.toNat ≤ 9) : ∃ j : Fin 10, histSlot c = some j ∧ j.val = c.toNat :=
  ⟨⟨c.toNat, by omega⟩, histSlot_eq_some.2 rfl, rfl⟩

/-- An illegal history write cursor names none. -/
theorem histSlot_eq_none {c : BitVec 4} : histSlot c = none ↔ 9 < c.toNat := by
  unfold histSlot
  split <;> simp_all

/-- The number cursor's advance, as a number (spec/40_register_ops.md R101). -/
theorem advanceWn_toNat (c : BitVec 5) : (advanceWn c).toNat = if c.toNat < 21 then c.toNat + 1 else 1 := by
  unfold advanceWn
  split
  · rw [BitVec.toNat_add]
    simp
    omega
  · rfl

/-- The history cursor's advance, as a number (spec/40_register_ops.md R103). -/
theorem advanceWh_toNat (c : BitVec 4) : (advanceWh c).toNat = (c.toNat + 1) % 10 := by
  unfold advanceWh
  rw [BitVec.toNat_ofNat]
  omega

/-- The entry a LASTH reads, as a number (spec/40_register_ops.md R104). -/
theorem prevEntry_val (c : BitVec 4) : (prevEntry c).val = (c.toNat + 9) % 10 := rfl

/-- The cursor that names an entry, as a number. -/
theorem histCursor_toNat (j : Fin 10) : (histCursor j).toNat = j.val := by
  unfold histCursor
  rw [BitVec.toNat_ofNat]
  omega

/-- Zero-extension keeps the literal's value (spec/30_encoding.md R73). -/
theorem literalValue_toNat (lit : Literal) : (literalValue lit).toNat = lit.toNat := by
  unfold literalValue
  rw [BitVec.toNat_setWidth]
  have := lit.isLt
  omega

end Sys2Proof.Machine
end

