-- ==== Sys2Proof/Laws/State.lean ====
section
/-! SUPPORT. One lemma per field per update of State, so that no proof unfolds a record update. -/

namespace Sys2Proof.Machine

/-! ### State.report -/

section
variable (s : State) (r : Status)

@[simp] theorem State.report_num : (s.report r).num = s.num := rfl
@[simp] theorem State.report_hist : (s.report r).hist = s.hist := rfl
@[simp] theorem State.report_wn : (s.report r).wn = s.wn := rfl
@[simp] theorem State.report_wh : (s.report r).wh = s.wh := rfl
@[simp] theorem State.report_rh : (s.report r).rh = s.rh := rfl
@[simp] theorem State.report_numWritten : (s.report r).numWritten = s.numWritten := rfl
@[simp] theorem State.report_histWritten : (s.report r).histWritten = s.histWritten := rfl
@[simp] theorem State.report_unwrittenRead : (s.report r).unwrittenRead = s.unwrittenRead := rfl
@[simp] theorem State.report_input : (s.report r).input = s.input := rfl
@[simp] theorem State.report_out : (s.report r).out = some r := rfl
@[simp] theorem State.report_sink : (s.report r).sink = s.sink ++ [r] := rfl

end

/-! ### State.quiet -/

section
variable (s : State)

@[simp] theorem State.quiet_num : (s.quiet).num = s.num := rfl
@[simp] theorem State.quiet_hist : (s.quiet).hist = s.hist := rfl
@[simp] theorem State.quiet_wn : (s.quiet).wn = s.wn := rfl
@[simp] theorem State.quiet_wh : (s.quiet).wh = s.wh := rfl
@[simp] theorem State.quiet_rh : (s.quiet).rh = s.rh := rfl
@[simp] theorem State.quiet_numWritten : (s.quiet).numWritten = s.numWritten := rfl
@[simp] theorem State.quiet_histWritten : (s.quiet).histWritten = s.histWritten := rfl
@[simp] theorem State.quiet_unwrittenRead : (s.quiet).unwrittenRead = s.unwrittenRead := rfl
@[simp] theorem State.quiet_input : (s.quiet).input = s.input := rfl
@[simp] theorem State.quiet_out : (s.quiet).out = none := rfl
@[simp] theorem State.quiet_sink : (s.quiet).sink = s.sink := rfl

end

/-! ### State.noteUnwritten -/

section
variable (s : State) (u : UnwrittenRead)

@[simp] theorem State.noteUnwritten_num : (s.noteUnwritten u).num = s.num := rfl
@[simp] theorem State.noteUnwritten_hist : (s.noteUnwritten u).hist = s.hist := rfl
@[simp] theorem State.noteUnwritten_wn : (s.noteUnwritten u).wn = s.wn := rfl
@[simp] theorem State.noteUnwritten_wh : (s.noteUnwritten u).wh = s.wh := rfl
@[simp] theorem State.noteUnwritten_rh : (s.noteUnwritten u).rh = s.rh := rfl
@[simp] theorem State.noteUnwritten_numWritten : (s.noteUnwritten u).numWritten = s.numWritten := rfl
@[simp] theorem State.noteUnwritten_histWritten : (s.noteUnwritten u).histWritten = s.histWritten := rfl
@[simp] theorem State.noteUnwritten_unwrittenRead : (s.noteUnwritten u).unwrittenRead = (s.unwrittenRead <|> some u) := rfl
@[simp] theorem State.noteUnwritten_input : (s.noteUnwritten u).input = s.input := rfl
@[simp] theorem State.noteUnwritten_out : (s.noteUnwritten u).out = s.out := rfl
@[simp] theorem State.noteUnwritten_sink : (s.noteUnwritten u).sink = s.sink := rfl

end

/-! ### State.writeNum -/

section
variable (s : State) (i : Fin 22) (v : Word)

@[simp] theorem State.writeNum_num : (s.writeNum i v).num = s.num.set i.val v i.isLt := rfl
@[simp] theorem State.writeNum_hist : (s.writeNum i v).hist = s.hist := rfl
@[simp] theorem State.writeNum_wn : (s.writeNum i v).wn = s.wn := rfl
@[simp] theorem State.writeNum_wh : (s.writeNum i v).wh = s.wh := rfl
@[simp] theorem State.writeNum_rh : (s.writeNum i v).rh = s.rh := rfl
@[simp] theorem State.writeNum_numWritten : (s.writeNum i v).numWritten = s.numWritten.set i.val true i.isLt := rfl
@[simp] theorem State.writeNum_histWritten : (s.writeNum i v).histWritten = s.histWritten := rfl
@[simp] theorem State.writeNum_unwrittenRead : (s.writeNum i v).unwrittenRead = s.unwrittenRead := rfl
@[simp] theorem State.writeNum_input : (s.writeNum i v).input = s.input := rfl
@[simp] theorem State.writeNum_out : (s.writeNum i v).out = s.out := rfl
@[simp] theorem State.writeNum_sink : (s.writeNum i v).sink = s.sink := rfl

end

/-! ### State.writeHist -/

section
variable (s : State) (j : Fin 10) (v : Word)

@[simp] theorem State.writeHist_num : (s.writeHist j v).num = s.num := rfl
@[simp] theorem State.writeHist_hist : (s.writeHist j v).hist = s.hist.set j.val v j.isLt := rfl
@[simp] theorem State.writeHist_wn : (s.writeHist j v).wn = s.wn := rfl
@[simp] theorem State.writeHist_wh : (s.writeHist j v).wh = s.wh := rfl
@[simp] theorem State.writeHist_rh : (s.writeHist j v).rh = s.rh := rfl
@[simp] theorem State.writeHist_numWritten : (s.writeHist j v).numWritten = s.numWritten := rfl
@[simp] theorem State.writeHist_histWritten : (s.writeHist j v).histWritten = s.histWritten.set j.val true j.isLt := rfl
@[simp] theorem State.writeHist_unwrittenRead : (s.writeHist j v).unwrittenRead = s.unwrittenRead := rfl
@[simp] theorem State.writeHist_input : (s.writeHist j v).input = s.input := rfl
@[simp] theorem State.writeHist_out : (s.writeHist j v).out = s.out := rfl
@[simp] theorem State.writeHist_sink : (s.writeHist j v).sink = s.sink := rfl

end

/-! ### State.noteNumRead -/

section
variable (s : State) (i : Fin 22)

@[simp] theorem State.noteNumRead_num : (s.noteNumRead i).num = s.num := by unfold State.noteNumRead; split <;> rfl
@[simp] theorem State.noteNumRead_hist : (s.noteNumRead i).hist = s.hist := by unfold State.noteNumRead; split <;> rfl
@[simp] theorem State.noteNumRead_wn : (s.noteNumRead i).wn = s.wn := by unfold State.noteNumRead; split <;> rfl
@[simp] theorem State.noteNumRead_wh : (s.noteNumRead i).wh = s.wh := by unfold State.noteNumRead; split <;> rfl
@[simp] theorem State.noteNumRead_rh : (s.noteNumRead i).rh = s.rh := by unfold State.noteNumRead; split <;> rfl
@[simp] theorem State.noteNumRead_numWritten : (s.noteNumRead i).numWritten = s.numWritten := by unfold State.noteNumRead; split <;> rfl
@[simp] theorem State.noteNumRead_histWritten : (s.noteNumRead i).histWritten = s.histWritten := by unfold State.noteNumRead; split <;> rfl
@[simp] theorem State.noteNumRead_input : (s.noteNumRead i).input = s.input := by unfold State.noteNumRead; split <;> rfl
@[simp] theorem State.noteNumRead_out : (s.noteNumRead i).out = s.out := by unfold State.noteNumRead; split <;> rfl
@[simp] theorem State.noteNumRead_sink : (s.noteNumRead i).sink = s.sink := by unfold State.noteNumRead; split <;> rfl

end

/-! ### State.noteHistRead -/

section
variable (s : State) (j : Fin 10)

@[simp] theorem State.noteHistRead_num : (s.noteHistRead j).num = s.num := by unfold State.noteHistRead; split <;> rfl
@[simp] theorem State.noteHistRead_hist : (s.noteHistRead j).hist = s.hist := by unfold State.noteHistRead; split <;> rfl
@[simp] theorem State.noteHistRead_wn : (s.noteHistRead j).wn = s.wn := by unfold State.noteHistRead; split <;> rfl
@[simp] theorem State.noteHistRead_wh : (s.noteHistRead j).wh = s.wh := by unfold State.noteHistRead; split <;> rfl
@[simp] theorem State.noteHistRead_rh : (s.noteHistRead j).rh = s.rh := by unfold State.noteHistRead; split <;> rfl
@[simp] theorem State.noteHistRead_numWritten : (s.noteHistRead j).numWritten = s.numWritten := by unfold State.noteHistRead; split <;> rfl
@[simp] theorem State.noteHistRead_histWritten : (s.noteHistRead j).histWritten = s.histWritten := by unfold State.noteHistRead; split <;> rfl
@[simp] theorem State.noteHistRead_input : (s.noteHistRead j).input = s.input := by unfold State.noteHistRead; split <;> rfl
@[simp] theorem State.noteHistRead_out : (s.noteHistRead j).out = s.out := by unfold State.noteHistRead; split <;> rfl
@[simp] theorem State.noteHistRead_sink : (s.noteHistRead j).sink = s.sink := by unfold State.noteHistRead; split <;> rfl

end

/-! ### State.stepBack -/

section
variable (s : State)

@[simp] theorem State.stepBack_num : (s.stepBack).num = s.num := by simp [State.stepBack]
@[simp] theorem State.stepBack_hist : (s.stepBack).hist = s.hist := by simp [State.stepBack]
@[simp] theorem State.stepBack_wn : (s.stepBack).wn = s.wn := by simp [State.stepBack]
@[simp] theorem State.stepBack_wh : (s.stepBack).wh = s.wh := by simp [State.stepBack]
@[simp] theorem State.stepBack_rh : (s.stepBack).rh = histCursor (prevEntry s.rh) := rfl
@[simp] theorem State.stepBack_numWritten : (s.stepBack).numWritten = s.numWritten := by simp [State.stepBack]
@[simp] theorem State.stepBack_histWritten : (s.stepBack).histWritten = s.histWritten := by simp [State.stepBack]
@[simp] theorem State.stepBack_unwrittenRead : (s.stepBack).unwrittenRead = (s.noteHistRead (prevEntry s.rh)).unwrittenRead := rfl
@[simp] theorem State.stepBack_input : (s.stepBack).input = s.input := by simp [State.stepBack]
@[simp] theorem State.stepBack_out : (s.stepBack).out = s.out := by simp [State.stepBack]
@[simp] theorem State.stepBack_sink : (s.stepBack).sink = s.sink := by simp [State.stepBack]

end

/-! ### State.applyReset -/

section
variable (s : State)

@[simp] theorem State.applyReset_num : (s.applyReset).num = State.reset.num := rfl
@[simp] theorem State.applyReset_hist : (s.applyReset).hist = State.reset.hist := rfl
@[simp] theorem State.applyReset_wn : (s.applyReset).wn = State.reset.wn := rfl
@[simp] theorem State.applyReset_wh : (s.applyReset).wh = State.reset.wh := rfl
@[simp] theorem State.applyReset_rh : (s.applyReset).rh = State.reset.rh := rfl
@[simp] theorem State.applyReset_numWritten : (s.applyReset).numWritten = State.reset.numWritten := rfl
@[simp] theorem State.applyReset_histWritten : (s.applyReset).histWritten = State.reset.histWritten := rfl
@[simp] theorem State.applyReset_unwrittenRead : (s.applyReset).unwrittenRead = State.reset.unwrittenRead := rfl
@[simp] theorem State.applyReset_input : (s.applyReset).input = s.input := rfl
@[simp] theorem State.applyReset_out : (s.applyReset).out = State.reset.out := rfl
@[simp] theorem State.applyReset_sink : (s.applyReset).sink = s.sink := rfl

end

/-! ### The UnwrittenRead record -/

/-- What `noteNumRead` does to the record: nothing for a readable entry, else it records the first fault. -/
theorem State.noteNumRead_unwrittenRead (s : State) (i : Fin 22) :
    (s.noteNumRead i).unwrittenRead =
      if i = 0 ∨ s.numWritten[i] = true then s.unwrittenRead else (s.unwrittenRead <|> some ⟨.num, i.val⟩) := by
  unfold State.noteNumRead
  split <;> simp_all

/-- What `noteHistRead` does to the record: nothing for a written entry, else it records the first fault. -/
theorem State.noteHistRead_unwrittenRead (s : State) (j : Fin 10) :
    (s.noteHistRead j).unwrittenRead =
      if s.histWritten[j] = true then s.unwrittenRead else (s.unwrittenRead <|> some ⟨.hist, j.val⟩) := by
  unfold State.noteHistRead
  split <;> simp_all

/-- Reading entry 0 gives the hardwired constant in every state (spec/10_state.md R23). -/
theorem State.readNum_zero (s : State) : s.readNum 0 = 0#32 := by simp [State.readNum]

/-- `readNum` depends on the number bank alone. -/
theorem State.readNum_congr {s t : State} (h : t.num = s.num) (i : Fin 22) : t.readNum i = s.readNum i := by
  simp [State.readNum, h]

end Sys2Proof.Machine
end

