-- ==== Sys2Proof/Laws/Ops.lean ====
section
/-! SUPPORT. One lemma for each shared operation and each instruction that says everything it can answer. -/

namespace Sys2Proof.Machine

/-- `storeNumber` answers a next state exactly through the entry its cursor names. -/
theorem storeNumber_next {v : Word} {s t : State} (h : storeNumber v s = .next t) :
    ∃ i : Fin 22, s.wn.toNat = i.val ∧ i ≠ 0 ∧ t = { s.writeNum i v with wn := advanceWn s.wn } := by
  unfold storeNumber at h
  split at h
  · rename_i i hi
    obtain ⟨h1, h2⟩ := numSlot_eq_some.1 hi
    cases h
    exact ⟨i, h1, h2, rfl⟩
  · cases h

/-- `storeNumber` under a legal cursor. -/
theorem storeNumber_eq {v : Word} {s : State} {i : Fin 22} (h : s.wn.toNat = i.val) (h0 : i ≠ 0) :
    storeNumber v s = .next { s.writeNum i v with wn := advanceWn s.wn } := by
  unfold storeNumber
  rw [numSlot_eq_some.2 ⟨h, h0⟩]

/-- `recordHistory` under a legal cursor. -/
theorem recordHistory_eq {v : Word} {s : State} {j : Fin 10} (h : s.wh.toNat = j.val) :
    recordHistory v s = .next { s.writeHist j v with wh := advanceWh s.wh, rh := advanceWh s.wh } := by
  unfold recordHistory
  rw [histSlot_eq_some.2 h]

/-- `recordHistory` answers a next state exactly through the entry its cursor names. -/
theorem recordHistory_next {v : Word} {s t : State} (h : recordHistory v s = .next t) :
    ∃ j : Fin 10, s.wh.toNat = j.val ∧ t = { s.writeHist j v with wh := advanceWh s.wh, rh := advanceWh s.wh } := by
  unfold recordHistory at h
  split at h
  · rename_i j hj
    cases h
    exact ⟨j, histSlot_eq_some.1 hj, rfl⟩
  · cases h

/-- The state after an arithmetic instruction that read entries `i` and `j` and recorded in entry `k`. -/
def arithState (op : AluOp) (i j : Fin 22) (k : Fin 10) (s : State) : State :=
  let r := aluResult op (s.readNum i) (s.readNum j)
  State.report (.result r (divzOf op (s.readNum j)))
    { ((s.noteNumRead i).noteNumRead j).writeHist k r with wh := advanceWh s.wh, rh := advanceWh s.wh }

/-- The state after a STORE that wrote entry `i`. -/
def storeState (lit : Literal) (i : Fin 22) (s : State) : State :=
  State.report (.stored (literalValue lit) s.wn)
    { s.writeNum i (literalValue lit) with wn := advanceWn s.wn }

/-- The state after a LASTH. -/
def lasthState (s : State) : State := s.stepBack.report (.lastValue s.lastValue)

/-! ### What those states hold -/

theorem storeState_num (lit : Literal) (i : Fin 22) (s : State) (j : Fin 22) :
    (storeState lit i s).num[j] = if j = i then literalValue lit else s.num[j] := by
  simp [storeState, Vector.getElem_set, Fin.ext_iff, eq_comm]

theorem storeState_numWritten (lit : Literal) (i : Fin 22) (s : State) (j : Fin 22) :
    (storeState lit i s).numWritten[j] = if j = i then true else s.numWritten[j] := by
  simp [storeState, Vector.getElem_set, Fin.ext_iff, eq_comm]

theorem arithState_hist (op : AluOp) (i j : Fin 22) (k : Fin 10) (s : State) (l : Fin 10) :
    (arithState op i j k s).hist[l] = if l = k then aluResult op (s.readNum i) (s.readNum j) else s.hist[l] := by
  simp [arithState, Vector.getElem_set, Fin.ext_iff, eq_comm]

theorem arithState_histWritten (op : AluOp) (i j : Fin 22) (k : Fin 10) (s : State) (l : Fin 10) :
    (arithState op i j k s).histWritten[l] = if l = k then true else s.histWritten[l] := by
  simp [arithState, Vector.getElem_set, Fin.ext_iff, eq_comm]

/-- Reads of entries that are the constant or written record no fault. -/
theorem arithState_unwrittenRead (op : AluOp) (i j : Fin 22) (k : Fin 10) (s : State) :
    (arithState op i j k s).unwrittenRead =
      if j = 0 ∨ s.numWritten[j] = true then
        (if i = 0 ∨ s.numWritten[i] = true then s.unwrittenRead else (s.unwrittenRead <|> some ⟨.num, i.val⟩))
      else
        ((if i = 0 ∨ s.numWritten[i] = true then s.unwrittenRead else (s.unwrittenRead <|> some ⟨.num, i.val⟩)) <|>
          some ⟨.num, j.val⟩) := by
  have h : (arithState op i j k s).unwrittenRead = ((s.noteNumRead i).noteNumRead j).unwrittenRead := rfl
  rw [h, State.noteNumRead_unwrittenRead, State.noteNumRead_unwrittenRead, State.noteNumRead_numWritten]

theorem lasthState_unwrittenRead (s : State) :
    (lasthState s).unwrittenRead =
      if s.histWritten[prevEntry s.rh] = true then s.unwrittenRead
      else (s.unwrittenRead <|> some ⟨.hist, (prevEntry s.rh).val⟩) := by
  rw [← State.noteHistRead_unwrittenRead]
  rfl

theorem lasthState_rh (s : State) : (lasthState s).rh.toNat = (s.rh.toNat + 9) % 10 := histCursor_toNat _

/-! ### What the instructions answer -/

/-- Both source fields in range and a legal history cursor: the instruction records and reports. -/
theorem arith_eq {op : AluOp} {f1 f2 : SrcField} {s : State} {i j : Fin 22} {k : Fin 10}
    (h1 : decaddr f1 = i.val) (h2 : decaddr f2 = j.val) (hk : s.wh.toNat = k.val) :
    arith op f1 f2 s = .next (arithState op i j k s) := by
  unfold arith arithOn
  rw [numIndex_eq_some.2 h1, numIndex_eq_some.2 h2]
  dsimp only
  rw [recordHistory_eq (j := k) (by simpa using hk)]
  simp [thenReport, arithState]

/-- `sourceOne` out of range. -/
theorem arith_source_one {op : AluOp} {f1 f2 : SrcField} {s : State} (h1 : 21 < decaddr f1) :
    arith op f1 f2 s = .next (s.report (.addrErr .one (decaddr f1))) := by
  unfold arith
  rw [numIndex_eq_none.2 h1]

/-- `sourceTwo` out of range, `sourceOne` in range. -/
theorem arith_source_two {op : AluOp} {f1 f2 : SrcField} {s : State} (h1 : decaddr f1 ≤ 21) (h2 : 21 < decaddr f2) :
    arith op f1 f2 s = .next (s.report (.addrErr .two (decaddr f2))) := by
  unfold arith
  rw [(numIndex_eq_some (i := ⟨decaddr f1, by omega⟩)).2 rfl, numIndex_eq_none.2 h2]

/-- Both sources in range and an illegal history cursor: the model fault. -/
theorem arith_fault {op : AluOp} {f1 f2 : SrcField} {s : State} (h1 : decaddr f1 ≤ 21) (h2 : decaddr f2 ≤ 21)
    (h : 9 < s.wh.toNat) : arith op f1 f2 s = .fault (.histCursorIllegal s.wh) := by
  unfold arith arithOn recordHistory
  rw [(numIndex_eq_some (i := ⟨decaddr f1, by omega⟩)).2 rfl, (numIndex_eq_some (i := ⟨decaddr f2, by omega⟩)).2 rfl]
  dsimp only
  rw [show histSlot ((s.noteNumRead ⟨decaddr f1, _⟩).noteNumRead ⟨decaddr f2, _⟩).wh = none by
    simpa [histSlot_eq_none] using h]
  simp [thenReport]

/-- Every way an arithmetic instruction answers a next state. -/
theorem arith_next {op : AluOp} {f1 f2 : SrcField} {s t : State} (h : arith op f1 f2 s = .next t) :
    (21 < decaddr f1 ∧ t = s.report (.addrErr .one (decaddr f1))) ∨
      (decaddr f1 ≤ 21 ∧ 21 < decaddr f2 ∧ t = s.report (.addrErr .two (decaddr f2))) ∨
      ∃ (i j : Fin 22) (k : Fin 10),
        decaddr f1 = i.val ∧ decaddr f2 = j.val ∧ s.wh.toNat = k.val ∧ t = arithState op i j k s := by
  by_cases h1 : 21 < decaddr f1
  · rw [arith_source_one h1] at h
    cases h
    exact .inl ⟨h1, rfl⟩
  by_cases h2 : 21 < decaddr f2
  · rw [arith_source_two (by omega) h2] at h
    cases h
    exact .inr (.inl ⟨by omega, h2, rfl⟩)
  by_cases hk : 9 < s.wh.toNat
  · rw [arith_fault (by omega) (by omega) hk] at h
    cases h
  · rw [arith_eq (i := ⟨decaddr f1, by omega⟩) (j := ⟨decaddr f2, by omega⟩) (k := ⟨s.wh.toNat, by omega⟩) rfl rfl rfl] at h
    cases h
    exact .inr (.inr ⟨_, _, _, rfl, rfl, rfl, rfl⟩)

/-- STORE under a legal cursor. -/
theorem execStore_eq {lit : Literal} {s : State} {i : Fin 22} (h : s.wn.toNat = i.val) (h0 : i ≠ 0) :
    execStore lit s = .next (storeState lit i s) := by
  unfold execStore
  rw [storeNumber_eq h h0]
  rfl

/-- Every way a STORE answers a next state. -/
theorem execStore_next {lit : Literal} {s t : State} (h : execStore lit s = .next t) :
    ∃ i : Fin 22, s.wn.toNat = i.val ∧ i ≠ 0 ∧ t = storeState lit i s := by
  by_cases hl : 1 ≤ s.wn.toNat ∧ s.wn.toNat ≤ 21
  · obtain ⟨i, -, hi, h0⟩ := numSlot_legal hl
    rw [execStore_eq hi.symm h0] at h
    cases h
    exact ⟨i, hi.symm, h0, rfl⟩
  · simp [execStore, storeNumber, numSlot_eq_none.2 hl, thenReport] at h

/-- LASTH answers in every state. -/
theorem execLasth_eq (s : State) : execLasth s = .next (lasthState s) := rfl

/-- The operation of an arithmetic instruction and its source fields. -/
def arithParts : Instr → Option (AluOp × SrcField × SrcField)
  | .store _ => none
  | .lasth => none
  | .add f1 f2 => some (.add, f1, f2)
  | .sub f1 f2 => some (.sub, f1, f2)
  | .mul f1 f2 => some (.mul, f1, f2)
  | .div f1 f2 => some (.div, f1, f2)

/-- An instruction with parts is arithmetic. -/
theorem arithParts_cases {i : Instr} {op : AluOp} {f1 f2 : SrcField} (h : arithParts i = some (op, f1, f2)) :
    i = .add f1 f2 ∨ i = .sub f1 f2 ∨ i = .mul f1 f2 ∨ i = .div f1 f2 := by
  cases i <;> simp_all [arithParts]

/-- Every instruction is a STORE, a LASTH or one `arith`. -/
theorem exec_cases (i : Instr) (s : State) :
    (∃ lit, i = .store lit ∧ exec i s = execStore lit s) ∨ (i = .lasth ∧ exec i s = execLasth s) ∨
      ∃ op f1 f2, arithParts i = some (op, f1, f2) ∧ exec i s = arith op f1 f2 s := by
  cases i with
  | store lit => exact .inl ⟨lit, rfl, rfl⟩
  | lasth => exact .inr (.inl ⟨rfl, rfl⟩)
  | add f1 f2 => exact .inr (.inr ⟨.add, f1, f2, rfl, rfl⟩)
  | sub f1 f2 => exact .inr (.inr ⟨.sub, f1, f2, rfl, rfl⟩)
  | mul f1 f2 => exact .inr (.inr ⟨.mul, f1, f2, rfl, rfl⟩)
  | div f1 f2 => exact .inr (.inr ⟨.div, f1, f2, rfl, rfl⟩)

/-- What an instruction can do when it answers a next state: a STORE, a LASTH, an out-of-range address reported, or an
arithmetic result recorded. -/
theorem exec_next {i : Instr} {s t : State} (h : exec i s = .next t) :
    (∃ lit k, i = .store lit ∧ s.wn.toNat = Fin.val k ∧ k ≠ 0 ∧ t = storeState lit k s) ∨
      (i = .lasth ∧ t = lasthState s) ∨
      (∃ op f1 f2 src f, arithParts i = some (op, f1, f2) ∧ (f = f1 ∨ f = f2) ∧ 21 < decaddr f ∧
        t = s.report (.addrErr src (decaddr f))) ∨
      ∃ op f1 f2 a b k, arithParts i = some (op, f1, f2) ∧ decaddr f1 = Fin.val a ∧ decaddr f2 = Fin.val b ∧
        s.wh.toNat = Fin.val k ∧ t = arithState op a b k s := by
  obtain ⟨lit, rfl, he⟩ | ⟨rfl, he⟩ | ⟨op, f1, f2, hp, he⟩ := exec_cases i s
  · rw [he] at h
    obtain ⟨k, h1, h2, h3⟩ := execStore_next h
    exact .inl ⟨lit, k, rfl, h1, h2, h3⟩
  · rw [he] at h
    cases h
    exact .inr (.inl ⟨rfl, rfl⟩)
  · rw [he] at h
    obtain ⟨h1, ht⟩ | ⟨-, h2, ht⟩ | ⟨a, b, k, h1, h2, h3, ht⟩ := arith_next h
    · exact .inr (.inr (.inl ⟨op, f1, f2, .one, f1, hp, .inl rfl, h1, ht⟩))
    · exact .inr (.inr (.inl ⟨op, f1, f2, .two, f2, hp, .inr rfl, h2, ht⟩))
    · exact .inr (.inr (.inr ⟨op, f1, f2, a, b, k, hp, h1, h2, h3, ht⟩))

end Sys2Proof.Machine
end

