-- ==== Sys2Proof/Laws/PerInstr.lean ====
section
/-! SUPPORT. The family EncodesInItsRow: every instruction's word matches the row of the opcode table that bears its
mnemonic, and no other row (spec/30_encoding.md R79). -/

namespace Sys2Proof.Laws.EncodesInItsRow

/-- The rows that the instruction's word matches are exactly its own. -/
def Statement (i : Instr) : Prop :=
  ((opcodeTable.filter fun r => r.matchesWord (encode i)).map OpcodeRow.mnemonic) = [i.mnemonic]

/-- The masked bits of a packed word depend on the opcode alone under the mask of STORE and LASTH. -/
theorem pack_opcMask (opc : BitVec 6) (f1 f2 : SrcField) (lit : Literal) (fn : BitVec 6) :
    packFields opc f1 f2 lit fn &&& 0xFC000000#32 = packFields opc 0 0 0 0 := by
  refine BitVec.eq_of_getLsbD_eq fun n hn => ?_
  rw [BitVec.getLsbD_and, packFields_getLsbD, packFields_getLsbD]
  interval_cases n <;> simp [BitVec.getLsbD, Nat.testBit]

/-- The masked bits of a packed word depend on the opcode and the function code under the arithmetic mask. -/
theorem pack_fnMask (opc : BitVec 6) (f1 f2 : SrcField) (lit : Literal) (fn : BitVec 6) :
    packFields opc f1 f2 lit fn &&& 0xFC00003F#32 = packFields opc 0 0 0 fn := by
  refine BitVec.eq_of_getLsbD_eq fun n hn => ?_
  rw [BitVec.getLsbD_and, packFields_getLsbD, packFields_getLsbD]
  interval_cases n <;> simp [BitVec.getLsbD, Nat.testBit]

/-- Which rows a packed word matches is decided by its opcode and its function code. -/
theorem rows_of_pack (opc : BitVec 6) (f1 f2 : SrcField) (lit : Literal) (fn : BitVec 6) :
    (opcodeTable.filter fun r => r.matchesWord (packFields opc f1 f2 lit fn)) =
      opcodeTable.filter fun r => r.matchesWord (packFields opc 0 0 0 fn) := by
  refine List.filter_congr fun r hr => ?_
  simp only [opcodeTable, List.mem_cons, List.not_mem_nil, or_false] at hr
  rcases hr with rfl | rfl | rfl | rfl | rfl | rfl <;>
    simp only [OpcodeRow.matchesWord, pack_opcMask, pack_fnMask]

theorem store (lit : Literal) : Statement (.store lit) := by
  simp only [Statement, encode, rows_of_pack, Instr.mnemonic]
  decide

theorem lasth : Statement .lasth := by
  unfold Statement
  decide

theorem add (f1 f2 : SrcField) : Statement (.add f1 f2) := by
  simp only [Statement, encode, rows_of_pack, Instr.mnemonic]
  decide

theorem sub (f1 f2 : SrcField) : Statement (.sub f1 f2) := by
  simp only [Statement, encode, rows_of_pack, Instr.mnemonic]
  decide

theorem mul (f1 f2 : SrcField) : Statement (.mul f1 f2) := by
  simp only [Statement, encode, rows_of_pack, Instr.mnemonic]
  decide

theorem div (f1 f2 : SrcField) : Statement (.div f1 f2) := by
  simp only [Statement, encode, rows_of_pack, Instr.mnemonic]
  decide

end Sys2Proof.Laws.EncodesInItsRow
end

