-- ==== Sys2Proof/Laws/Step.lean ====
section
/-! SUPPORT. Everything a step can do, said once. -/

namespace Sys2Proof.Machine

/-- With nothing presented, a step keeps the block. -/
theorem step_nil {s : State} (h : s.input = []) : step s = .next s.quiet := by
  simp [step, State.takeInput, h]

/-- With ports presented, a step is what they do to the state with them consumed. -/
theorem step_cons {s : State} {p : InPorts} {rest : List InPorts} (h : s.input = p :: rest) :
    step s = applyPorts p { s with input := rest } := by
  simp [step, State.takeInput, h]

/-- A step that resets. -/
theorem step_rst {s : State} {p : InPorts} {rest : List InPorts} (h : s.input = p :: rest) (hr : p.rst = true) :
    step s = .next { s with input := rest }.applyReset := by
  rw [step_cons h, applyPorts, if_pos hr]

/-- A step with no submission on the ports. -/
theorem step_idle {s : State} {p : InPorts} {rest : List InPorts} (h : s.input = p :: rest) (hr : p.rst = false)
    (hv : p.valid = false) : step s = .next { s with input := rest }.quiet := by
  rw [step_cons h, applyPorts, if_neg (by simp [hr]), if_neg (by simp [hv])]

/-- A step that submits. -/
theorem step_submit {s : State} {p : InPorts} {rest : List InPorts} (h : s.input = p :: rest) (hp : p.Submits) :
    step s = submit p.lenOk p.word { s with input := rest } := by
  rw [step_cons h, applyPorts, if_neg (by simp [hp.1]), if_pos hp.2]

/-- A step that runs a decoded instruction. -/
theorem step_runs {s : State} {p : InPorts} {rest : List InPorts} {i : Instr} (h : s.input = p :: rest)
    (hp : p.Runs i) : step s = exec i { s with input := rest } := by
  rw [step_submit h hp.1, submit, if_neg (by simp [hp.2.1]), hp.2.2]

/-- A step that submits a string of the wrong length. -/
theorem step_lenErr {s : State} {p : InPorts} {rest : List InPorts} (h : s.input = p :: rest) (hp : p.Submits)
    (hl : p.lenOk = false) : step s = .next (State.report .lenErr { s with input := rest }) := by
  rw [step_submit h hp, submit, if_pos hl]

/-- A step that submits a word with an illegal opcode. -/
theorem step_opcErr {s : State} {p : InPorts} {rest : List InPorts} (h : s.input = p :: rest) (hp : p.Submits)
    (hl : p.lenOk = true) (hd : decode p.word = .badOpcode) :
    step s = .next (State.report .opcErr { s with input := rest }) := by
  rw [step_submit h hp, submit, if_neg (by simp [hl]), hd]

/-- A step that submits a word with an illegal function code. -/
theorem step_functErr {s : State} {p : InPorts} {rest : List InPorts} (h : s.input = p :: rest) (hp : p.Submits)
    (hl : p.lenOk = true) (hd : decode p.word = .badFunction) :
    step s = .next (State.report .functErr { s with input := rest }) := by
  rw [step_submit h hp, submit, if_neg (by simp [hl]), hd]

/-- Every way a step answers a next state: nothing submitted, a reset, a diagnostic of the decoder, or one instruction. -/
theorem step_next {s t : State} (h : step s = .next t) :
    (s.input = [] ∧ t = s.quiet) ∨
      ∃ p rest, s.input = p :: rest ∧
        ((p.rst = true ∧ t = { s with input := rest }.applyReset) ∨
          (p.rst = false ∧ p.valid = false ∧ t = { s with input := rest }.quiet) ∨
          (p.Submits ∧ ∃ r : Status, r.isDiagnostic = true ∧ (p.lenOk = true → ∀ i, decode p.word ≠ .instr i) ∧
            t = { s with input := rest }.report r) ∨
          ∃ i, p.Runs i ∧ exec i { s with input := rest } = .next t) := by
  cases hi : s.input with
  | nil =>
    rw [step_nil hi] at h
    cases h
    exact .inl ⟨rfl, rfl⟩
  | cons p rest =>
    refine .inr ⟨p, rest, rfl, ?_⟩
    cases hr : p.rst with
    | true =>
      rw [step_rst hi hr] at h
      cases h
      exact .inl ⟨rfl, rfl⟩
    | false =>
      cases hv : p.valid with
      | false =>
        rw [step_idle hi hr hv] at h
        cases h
        exact .inr (.inl ⟨rfl, rfl, rfl⟩)
      | true =>
        rw [step_submit hi ⟨hr, hv⟩, submit] at h
        cases hl : p.lenOk with
        | false =>
          rw [if_pos hl] at h
          cases h
          exact .inr (.inr (.inl ⟨⟨hr, hv⟩, .lenErr, rfl, by simp, rfl⟩))
        | true =>
          rw [if_neg (by simp [hl])] at h
          cases hd : decode p.word with
          | instr i =>
            rw [hd] at h
            exact .inr (.inr (.inr ⟨i, ⟨⟨hr, hv⟩, hl, hd⟩, h⟩))
          | badOpcode =>
            rw [hd] at h
            cases h
            exact .inr (.inr (.inl ⟨⟨hr, hv⟩, .opcErr, rfl, by simp, rfl⟩))
          | badFunction =>
            rw [hd] at h
            cases h
            exact .inr (.inr (.inl ⟨⟨hr, hv⟩, .functErr, rfl, by simp, rfl⟩))

/-- A run of the core, one step at a time. -/
theorem core_run_succ (n : Nat) (s : State) :
    Sys2Proof.core.run (n + 1) s =
      match step s with
      | .next t => Sys2Proof.core.run n t
      | .fault f => .fault f
      | .refused q => .refused q := by
  simp only [Host.Core.run]
  have h : Sys2Proof.core.step s = step s := rfl
  rw [h]
  cases step s <;> rfl

/-- A sequence runs its first instruction and then the rest. -/
theorem execAll_cons {i : Instr} {is : List Instr} {s t : State} (h : exec i s = .next t) :
    execAll (i :: is) s = execAll is t := by
  rw [execAll, h]

/-- A sequence that answers a next state answered one at its first instruction. -/
theorem execAll_cons_next {i : Instr} {is : List Instr} {s u : State} (h : execAll (i :: is) s = .next u) :
    ∃ t, exec i s = .next t ∧ execAll is t = .next u := by
  rw [execAll] at h
  split at h
  · exact ⟨_, ‹_›, h⟩
  · cases h
  · cases h

end Sys2Proof.Machine
end

