-- ==== Sys2Proof/Laws/SpecStep.lean ====
section
/-! SUPPORT. What the step that raises `UnwrittenRead` can do, in terms of `step`. -/

namespace Sys2Proof.Machine

/-- Raising answers a next state exactly where the outcome is a next state without the record. -/
theorem raiseUnwritten_eq_next {o : Host.Outcome State Fault Refusal} {t : State} :
    raiseUnwritten o = .next t ↔ o = .next t ∧ t.Clean := by
  cases o with
  | next u =>
    cases hu : u.unwrittenRead with
    | none =>
      rw [show raiseUnwritten (.next u) = .next u by simp only [raiseUnwritten, hu]]
      exact ⟨fun h => ⟨h, (by cases h; exact hu)⟩, And.left⟩
    | some v =>
      rw [show raiseUnwritten (.next u) = .fault (.unwrittenRead v) by simp only [raiseUnwritten, hu]]
      exact ⟨fun h => (by cases h), fun ⟨h, hc⟩ => by
        cases h
        exact absurd (hu.symm.trans hc) (by simp)⟩
  | fault f => exact ⟨fun h => (by cases h), fun h => by cases h.1⟩
  | refused q => exact ⟨fun h => (by cases h), fun h => by cases h.1⟩

/-- A step to a state without the record. -/
theorem specStep_of_clean {s t : State} (h : step s = .next t) (hc : t.Clean) : specStep s = .next t :=
  raiseUnwritten_eq_next.2 ⟨h, hc⟩

/-- A step to a state with the record: the model fault. -/
theorem specStep_of_unwritten {s t : State} {u : UnwrittenRead} (h : step s = .next t) (hu : t.unwrittenRead = some u) :
    specStep s = .fault (.unwrittenRead u) := by
  simp only [specStep, h, raiseUnwritten, hu]

/-- A step that stops for another reason stops so. -/
theorem specStep_of_fault {s : State} {f : Fault} (h : step s = .fault f) : specStep s = .fault f := by
  simp only [specStep, h, raiseUnwritten]

/-- A run of the machine that raises the fault, one step at a time. -/
theorem specCore_run_succ (n : Nat) (s : State) :
    specCore.run (n + 1) s =
      match specStep s with
      | .next t => specCore.run n t
      | .fault f => .fault f
      | .refused q => .refused q := by
  simp only [Host.Core.run]
  rw [show specCore.step s = specStep s from rfl]
  cases specStep s <;> rfl

end Sys2Proof.Machine
end

