-- ==== Sys2Proof/Tests/Slice0.lean ====
section
/-! SUPPORT. Small tests. Expected results are those of spec/95_test_vectors.md or a hand calculation from the rule
named; the theorems named witness_ show that the hypotheses of the statements can be met together. -/

namespace Sys2Proof.Tests

open Sys2Proof.Machine

/-! ### Helpers -/

/-- The next state an outcome answers, if it does. -/
def next? (o : Host.Outcome State Fault Refusal) : Option State :=
  match o with
  | .next t => some t
  | .fault _ => none
  | .refused _ => none

/-- The status a next state shows. -/
def shown (o : Host.Outcome State Fault Refusal) : Option Status := (next? o).bind State.out

/-- Whether a next state has the same block as `s`. -/
def keeps (s : State) (o : Host.Outcome State Fault Refusal) : Bool :=
  match o with
  | .next t => decide (SameBlock s t)
  | .fault _ => false
  | .refused _ => false

theorem exists_next {o : Host.Outcome State Fault Refusal} (h : (next? o).isSome = true) : ∃ t, o = .next t := by
  cases o with
  | next t => exact ⟨t, rfl⟩
  | fault f => cases h
  | refused q => cases h

/-- The start state of spec/95_test_vectors.md section 2.5: num[1] = 5, num[10] = 10, num[11] = 3, wh = rh = 4. -/
def bench : State :=
  { ((State.reset.writeNum 1 5#32).writeNum 10 10#32).writeNum 11 3#32 with wh := 4#4, rh := 4#4 }

/-- Reset and one history write of 15: the second row of spec/95_test_vectors.md section 2.4. -/
def oneResult : State := { State.reset.writeHist 0 15#32 with wh := 1#4, rh := 1#4 }

/-- A state at which the next step is the submission of one word. -/
def submitting (s : State) (w : BitVec 32) : State := { s with input := [present w] }

/-! ### Well-formed assembly: an ill-formed term for each check (spec/30_encoding.md R92) -/

theorem test_wellFormed_literal : (Asm.store 1024).wellFormed = false ∧ (Asm.store 1023).wellFormed = true := by decide
theorem test_wellFormed_operand :
    (AsmOperand.reg 2).wellFormed = false ∧ (AsmOperand.reg 10).wellFormed = true ∧
      (AsmOperand.raw 31#5).wellFormed = true := by decide
theorem test_wellFormed_add :
    (Asm.add (.reg 2) (.reg 1)).wellFormed = false ∧ (Asm.add (.reg 1) (.reg 2)).wellFormed = false := by decide
theorem test_wellFormed_sub :
    (Asm.sub (.reg 21) (.reg 1)).wellFormed = false ∧ (Asm.sub (.reg 1) (.reg 9)).wellFormed = false := by decide
theorem test_wellFormed_mul :
    (Asm.mul (.reg 12) (.reg 1)).wellFormed = false ∧ (Asm.mul (.reg 1) (.reg 22)).wellFormed = false := by decide
theorem test_wellFormed_div :
    (Asm.div (.reg 3) (.reg 1)).wellFormed = false ∧ (Asm.div (.reg 1) (.reg 100)).wellFormed = false := by decide
theorem test_assemble_refuses : assemble (.add (.reg 2) (.reg 1)) = none ∧ assemble (.store 1024) = none := by decide

/-! ### Decoding: words written out from the encodings (spec/opcode_table.json, spec/95_test_vectors.md section 2.1) -/

theorem test_decode_store : decode 0b00000100000000000000000101000000#32 = .instr (.store 5#10) := by decide
theorem test_decode_lasth : decode 0b10000111111111111111111111111111#32 = .instr .lasth := by decide
theorem test_decode_add : decode 0b00000000001000100000000000100000#32 = .instr (.add 0b00001#5 0b00010#5) := by decide
theorem test_decode_sub : decode 0b00000000010000110000000000100010#32 = .instr (.sub 0b00010#5 0b00011#5) := by decide
theorem test_decode_mul : decode 0b00000000010000110000000000011000#32 = .instr (.mul 0b00010#5 0b00011#5) := by decide
theorem test_decode_div : decode 0b00000000011000100000000000011010#32 = .instr (.div 0b00011#5 0b00010#5) := by decide
theorem test_decode_illegal :
    decode 0xFFFFFFFF#32 = .badOpcode ∧ decode 0x0000003F#32 = .badFunction ∧ decode 0#32 = .badFunction := by decide
theorem test_decodeTableWord :
    decodeTableWord 32 0x00220020 = some (.add 1#5 2#5) ∧ decodeTableWord 32 0x80000000 = none ∧
      decodeTableWord 40 0x00220020 = none := by decide
theorem test_wordOfChars :
    wordOfChars [false, false, false, false, false, true, false, false, false, false, false, false, false, false, false,
      false, false, false, false, false, false, false, false, true, false, true, false, false, false, false, false,
      false] = 0x04000140#32 := by decide
theorem test_encode : encode (.store 5#10) = 0x04000140#32 ∧ encode (.div 1#5 3#5) = 0x0023001A#32 := by decide
theorem test_disassemble :
    (disassemble (.add 1#5 2#5)).text = "add r1, r10" ∧ (disassemble (.add 4#5 1#5)).text = "add f=00100, r1" ∧
      (disassemble (.store 5#10)).text = "store #5" := by decide
theorem test_opcodeTable_disjoint :
    opcodeTable.Pairwise fun a b => a.bits &&& (a.mask &&& b.mask) ≠ b.bits &&& (a.mask &&& b.mask) := by decide

/-! ### The arithmetic unit (spec/95_test_vectors.md section 2.6) -/

theorem test_alu_add :
    aluResult .add 0x7FFFFFFF#32 1#32 = 0x80000000#32 ∧ aluResult .add 0x80000000#32 0xFFFFFFFF#32 = 0x7FFFFFFF#32 := by decide
theorem test_alu_sub :
    aluResult .sub 5#32 10#32 = 0xFFFFFFFB#32 ∧ aluResult .sub 0#32 0x80000000#32 = 0x80000000#32 := by decide
theorem test_alu_mul :
    aluResult .mul 0x00010000#32 0x00010000#32 = 0#32 ∧ aluResult .mul 0xFFFFFFFD#32 5#32 = 0xFFFFFFF1#32 := by decide
theorem test_alu_div :
    aluResult .div 0xFFFFFFF9#32 2#32 = 0xFFFFFFFD#32 ∧ aluResult .div 7#32 0xFFFFFFFE#32 = 0xFFFFFFFD#32 ∧
      aluResult .div 0xFFFFFFF9#32 0xFFFFFFFE#32 = 3#32 ∧ aluResult .div 0x80000000#32 0xFFFFFFFF#32 = 0x80000000#32 := by decide

/-! ### The instructions (spec/95_test_vectors.md sections 2.3 to 2.5) -/

theorem test_store_reset :
    (next? (exec (.store 1023#10) State.reset)).map (fun t => (t.readNum 1, t.wn, t.out)) =
      some (1023#32, 2#5, some (.stored 1023#32 1#5)) := by decide
theorem test_store_wraps :
    (next? (exec (.store 9#10) { bench with wn := 21#5 })).map (fun t => (t.readNum 21, t.wn, t.out)) =
      some (9#32, 1#5, some (.stored 9#32 21#5)) := by decide
theorem test_lasth_written :
    (next? (exec .lasth oneResult)).map (fun t => (t.rh, t.out, t.unwrittenRead)) =
      some (0#4, some (.lastValue 15#32), none) := by decide
/-- The row `reset, lasth` of section 2.4: UnwrittenRead(HIST, 9) and `rh` = 9; here the fault is a record (log 1). -/
theorem test_lasth_unwritten :
    (next? (exec .lasth State.reset)).map (fun t => (t.rh, t.unwrittenRead)) = some (9#4, some ⟨.hist, 9⟩) := by decide
theorem test_add : shown (step (submitting bench 0x00220020#32)) = some (.result 15#32 false) := by decide
theorem test_add_moves_cursors :
    (next? (exec (.add 1#5 2#5) bench)).map (fun t => (t.hist[4], t.wh, t.rh)) = some (15#32, 5#4, 5#4) := by decide
theorem test_sub_negative : shown (step (submitting bench 0x00220022#32)) = some (.result 0xFFFFFFFB#32 false) := by decide
theorem test_sub_order : shown (step (submitting bench 0x00430022#32)) = some (.result 7#32 false) := by decide
theorem test_mul : shown (step (submitting bench 0x00430018#32)) = some (.result 30#32 false) := by decide
theorem test_mul_wraps_cursor :
    (next? (exec (.mul 1#5 1#5) { bench with wh := 9#4 })).map (fun t => (t.hist[9], t.wh, t.rh)) =
      some (25#32, 0#4, 0#4) := by decide
theorem test_div : shown (step (submitting bench 0x0043001A#32)) = some (.result 3#32 false) := by decide
theorem test_div_by_zero : shown (step (submitting bench 0x0020001A#32)) = some (.result 0#32 true) := by decide
/-- The row `reset, store #5, add r1, r10` of section 2.5: UnwrittenRead(NUM, 10), here a record (log 1). -/
theorem test_add_unwritten :
    (next? (exec (.add 1#5 2#5) (State.reset.writeNum 1 5#32))).map State.unwrittenRead = some (some ⟨.num, 10⟩) := by decide

/-! ### The step: every status in the order of spec/60_exceptions.md R150, and what leaves the state unchanged -/

theorem test_step_lenErr :
    shown (step { bench with input := [{ present 0x04000240#32 with lenOk := false }] }) = some .lenErr ∧
      keeps bench (step { bench with input := [{ present 0x04000240#32 with lenOk := false }] }) = true := by decide
theorem test_step_store : shown (step (submitting bench 0x07FF017F#32)) = some (.stored 5#32 1#5) := by decide
theorem test_step_lasth : shown (step (submitting oneResult 0x87FFFFFF#32)) = some (.lastValue 15#32) := by decide
theorem test_step_opcErr :
    shown (step (submitting bench 0x080000C0#32)) = some .opcErr ∧
      keeps bench (step (submitting bench 0x080000C0#32)) = true := by decide
/-- FUNCT_ERR takes priority over ADDR_ERR: `.word 0x00810000`. -/
theorem test_step_functErr :
    shown (step (submitting bench 0x00810000#32)) = some .functErr ∧
      keeps bench (step (submitting bench 0x00810000#32)) = true := by decide
/-- `sourceOne` is reported first: `add f=00100, f=11111`. -/
theorem test_step_addrErr_one :
    shown (step (submitting bench 0x009F0020#32)) = some (.addrErr .one 100) ∧
      keeps bench (step (submitting bench 0x009F0020#32)) = true := by decide
/-- The range checks come before the reads: `add r10, f=00100` with `num[10]` unwritten. -/
theorem test_step_addrErr_two :
    shown (step (submitting State.reset 0x00440020#32)) = some (.addrErr .two 100) ∧
      keeps State.reset (step (submitting State.reset 0x00440020#32)) = true := by decide
theorem test_step_rst :
    (next? (step { bench with wn := 7#5, input := [{ present 0x04000140#32 with rst := true }] })).map
      (fun t => (t.wn, t.wh, t.numWritten[1], t.out, t.sink)) = some (1#5, 0#4, false, none, []) := by decide
theorem test_withFetchWord :
    shown (step (State.reset.withFetchWord 32 0x04000140)) = some (.stored 5#32 1#5) ∧
      shown (step (State.reset.withFetchWord 32 0x84000000)) = some (.lastValue 0#32) ∧
      shown (step (State.reset.withFetchWord 32 0x00000020)) = some (.result 0#32 false) := by decide
/-- The spec's rows that end in the model fault: spec/95_test_vectors.md sections 2.4, 2.5 and 2.7, and E6. -/
theorem test_specStep_faults :
    specStep (submitting State.reset 0x84000000#32) = .fault (.unwrittenRead ⟨.hist, 9⟩) ∧
      specStep (submitting (State.reset.writeNum 1 5#32) 0x00220020#32) = .fault (.unwrittenRead ⟨.num, 10⟩) ∧
      specStep (submitting State.reset 0x00210020#32) = .fault (.unwrittenRead ⟨.num, 1⟩) := ⟨rfl, rfl, rfl⟩
/-- The range checks come before the reads, and a clean step is as `step` has it: sections 2.5 and 2.7. -/
theorem test_specStep_completes :
    shown (specStep (submitting (State.reset.writeNum 1 5#32) 0x00440020#32)) = some (.addrErr .two 100) ∧
      shown (specStep (submitting State.reset 0x00000020#32)) = some (.result 0#32 false) := by decide

theorem test_ports :
    (Status.addrErr .two 10101).ports = ⟨true, 7#3, 0#32, 0#5, 2#2, 10101#14, false⟩ ∧
      (Status.stored 5#32 1#5).ports = ⟨true, 2#3, 5#32, 1#5, 0#2, 0#14, false⟩ := by decide
theorem test_lines :
    (Status.result 15#32 false).lines = ["Calculated Result: 15"] ∧
      (Status.lastValue 0xFFFFFFFB#32).lines = ["Last Calculated Value: -5"] := by decide

/-! ### Witnesses: the hypotheses of each statement can be met -/

theorem witness_DecodedWordReencodes :
    decode 0x07FF017F#32 = .instr (.store 5#10) ∧ decode 0x87FFFFFF#32 = .instr .lasth ∧
      decode 0x0000FFE0#32 = .instr (.add 0#5 0#5) := by decide
theorem witness_OpcodeMapSelectsTheOperation :
    (0b111111#6 ≠ 0b000000#6 ∧ 0b111111#6 ≠ 0b000001#6 ∧ 0b111111#6 ≠ 0b100001#6) ∧
      (0b000000#6 ≠ 0b100000#6 ∧ 0b000000#6 ≠ 0b100010#6 ∧ 0b000000#6 ≠ 0b011000#6 ∧ 0b000000#6 ≠ 0b011010#6) := by decide
theorem witness_CharactersMapToBits :
    (List.replicate 32 true).length = 32 ∧ 0 < (List.replicate 32 true).length ∧
      31 < (List.replicate 32 true).length := by decide
theorem witness_AssemblerRoundTrip :
    (0 ≤ 1023 ∧ 1023 ≤ 1023) ∧ (AsmOperand.reg 10).field = some 0b00010#5 ∧ (AsmOperand.raw 31#5).field = some 31#5 := by
  decide
theorem witness_DecimalDigitAddress :
    decode 0x03FF0020#32 = .instr (.add 31#5 31#5) ∧ decode 0x00000022#32 = .instr (.sub 0#5 0#5) ∧
      decode 0x00350018#32 = .instr (.mul 1#5 21#5) ∧ decode 0x0063001A#32 = .instr (.div 3#5 3#5) := by decide
theorem witness_InRangeSourceFields : decaddr 3#5 ≤ 21 ∧ 21 < decaddr 4#5 ∧ 21 < decaddr 31#5 := by decide
theorem witness_DivTruncatesTowardZero :
    (0xFFFFFFFF#32 ≠ 0#32 ∧ ¬(0x80000001#32 = 0x80000000#32 ∧ 0xFFFFFFFF#32 = 0xFFFFFFFF#32)) ∧
      (1#32 ≠ 0#32 ∧ ¬(0x80000000#32 = 0x80000000#32 ∧ 1#32 = 0xFFFFFFFF#32)) := by decide
theorem witness_StoreWritesTheCursorSlot :
    (1 ≤ State.reset.wn.toNat ∧ State.reset.wn.toNat ≤ 21) ∧
      (1 ≤ ({ bench with wn := 21#5 } : State).wn.toNat ∧ ({ bench with wn := 21#5 } : State).wn.toNat ≤ 21) := by decide
theorem witness_StoreLeavesTheRestUnchanged : ∃ t, exec (.store 5#10) bench = .next t := exists_next (by decide)
theorem witness_StoreThenLoadReturnsTheLiteral :
    ((1 : Fin 22) ≠ 0 ∧ (1 : Fin 22).val = State.reset.wn.toNat) ∧
      (21 : Fin 22).val = ({ bench with wn := 21#5 } : State).wn.toNat ∧
      (1 ≤ bench.wn.toNat ∧ decaddr 1#5 = bench.wn.toNat ∧ bench.wh.toNat ≤ 9) ∧
      (decaddr 3#5 = ({ bench with wn := 11#5 } : State).wn.toNat) ∧ (1 ≤ 1 ∧ 21 ≤ 21) := by decide
theorem witness_StoresWrapAroundTheNumberBank :
    State.reset.wn = 1#5 ∧ 21 < (List.replicate 22 7#10).length ∧ (List.replicate 22 7#10).length ≤ 21 + 21 ∧
      (1 : Fin 22).val = 21 % 21 + 1 ∧ (List.replicate 22 7#10).length ≤ 1 + 21 ∧ (2 : Fin 22).val = 1 % 21 + 1 ∧
      (2 : Fin 22) ≠ 0 := by decide
theorem witness_LasthReportsTheEntryBefore :
    (0 : Fin 10).val = (oneResult.rh.toNat + 9) % 10 ∧ oneResult.histWritten[(0 : Fin 10)] = true ∧
      (9 : Fin 10).val = ((State.reset.writeHist 9 1#32).rh.toNat + 9) % 10 ∧
      (State.reset.writeHist 9 1#32).histWritten[(9 : Fin 10)] = true := by decide
theorem witness_LasthOfAnUnwrittenEntryIsRecorded :
    (9 : Fin 10).val = (State.reset.rh.toNat + 9) % 10 ∧ State.reset.histWritten[(9 : Fin 10)] = false := by decide
theorem witness_LasthLeavesTheRestUnchanged :
    (∃ t, exec .lasth oneResult = .next t) ∧ (0 : Fin 10).val = (oneResult.rh.toNat + 9) % 10 ∧
      oneResult.histWritten[(0 : Fin 10)] = true := ⟨exists_next (by decide), by decide, by decide⟩
theorem witness_HistoryReadsInReverseOrder :
    (List.replicate 10 (Instr.add 1#5 3#5)).length ≤ 10 ∧
      (∀ i ∈ List.replicate 10 (Instr.add 1#5 3#5), writesHistory i = true) ∧
      ({ bench with wh := 9#4 } : State).wh.toNat ≤ 9 := by decide
theorem witness_EleventhReadRepeatsTheFirst :
    State.reset.rh.toNat ≤ 9 ∧ ({ bench with rh := 9#4 } : State).rh.toNat ≤ 9 := by decide
theorem witness_LasthFindsAWrittenEntryExactlyWhen :
    State.reset.CursorsLegal ∧ State.reset.rh = State.reset.wh ∧
      (∀ j : Fin 10, State.reset.histWritten[j] = false) ∧ State.reset.Clean := by decide
/-- The boundaries of the two conditions: ten history writes; as many LASTHs as history writes; one LASTH more, after
which the run is no longer clean. -/
theorem witness_LasthFindsAWrittenEntryExactlyWhen_boundaries :
    historyWrites (List.replicate 10 (.add 0#5 0#5)) = 10 ∧
      ((next? (execAll (List.replicate 10 (.add 0#5 0#5)) State.reset)).map State.unwrittenRead = some none) ∧
      lasthCount 0 [.add 0#5 0#5, .add 0#5 0#5, .lasth] + 1 = historyWrites [.add 0#5 0#5, .add 0#5 0#5, .lasth] ∧
      ((next? (execAll [.add 0#5 0#5, .add 0#5 0#5, .lasth] State.reset)).map State.unwrittenRead = some none) ∧
      lasthCount 0 [.add 0#5 0#5, .lasth, .lasth] + 1 = historyWrites [.add 0#5 0#5, .lasth, .lasth] + 2 ∧
      ((next? (execAll [.add 0#5 0#5, .lasth, .lasth] State.reset)).map State.unwrittenRead =
        some (some ⟨.hist, 9⟩)) := by
  decide
theorem witness_RecordHistoryWritesAndResynchronises :
    State.reset.wh.toNat < 9 ∧ ({ bench with wh := 9#4 } : State).wh.toNat = 9 := by decide
theorem witness_ArithmeticRecords :
    decaddr 0#5 = (0 : Fin 22).val ∧ decaddr 3#5 = (11 : Fin 22).val ∧ bench.wh.toNat ≤ 9 ∧
      bench.NumReadable 0 ∧ bench.NumReadable 11 ∧ bench.readNum 11 ≠ 0#32 := by decide
theorem witness_DivideByZeroRecordsZero :
    decaddr 1#5 = (1 : Fin 22).val ∧ decaddr 2#5 = (10 : Fin 22).val ∧ bench.wh.toNat ≤ 9 ∧ bench.NumReadable 1 ∧
      (bench.writeNum 10 0#32).NumReadable 10 ∧ (bench.writeNum 10 0#32).readNum 10 = 0#32 ∧
      bench.readNum 0 = 0#32 := by decide
theorem witness_ArithmeticLeavesTheRestUnchanged :
    (∃ t, exec (.add 1#5 2#5) bench = .next t) ∧ (∃ t, exec (.mul 1#5 4#5) bench = .next t) ∧
      isArith (.add 1#5 2#5) = true ∧ writesHistory (.mul 1#5 4#5) = false :=
  ⟨exists_next (by decide), exists_next (by decide), rfl, by decide⟩
theorem witness_OutOfRangeSourceIsReported :
    21 < decaddr 4#5 ∧ 21 < decaddr 31#5 ∧ decaddr 3#5 ≤ 21 := by decide
theorem witness_UnwrittenOperandIsRecorded :
    State.reset.Clean ∧ State.reset.wh.toNat ≤ 9 ∧ decaddr 1#5 = (1 : Fin 22).val ∧ ¬State.reset.NumReadable 1 ∧
      decaddr 0#5 = (0 : Fin 22).val ∧ State.reset.NumReadable 0 ∧ bench.Clean ∧ bench.NumReadable 1 ∧
      bench.NumReadable 10 := by decide
theorem witness_RegisterZeroIsConstant : (∃ t, exec (.store 5#10) bench = .next t) ∧ bench.wn ≠ 0#5 :=
  ⟨exists_next (by decide), by decide⟩
theorem witness_IllegalCursorStops :
    ({ bench with wn := 0#5 } : State).wn.toNat = 0 ∧ 21 < ({ bench with wn := 22#5 } : State).wn.toNat ∧
      writesHistory (.div 1#5 3#5) = true ∧ 9 < ({ bench with wh := 10#4 } : State).wh.toNat := by decide
theorem witness_StepRunsTheDecodedInstruction :
    (submitting bench 0x00220020#32).input = [present 0x00220020#32] ∧ (present 0x00220020#32).Runs (.add 1#5 2#5) := by
  decide
theorem witness_WrongLengthIsReported :
    ({ bench with input := [{ present 0#32 with lenOk := false }] } : State).input =
        [{ present 0#32 with lenOk := false }] ∧
      ({ present 0#32 with lenOk := false } : InPorts).Submits ∧
      (List.replicate 31 true).length ≠ 32 ∧ (List.replicate 33 true).length ≠ 32 := by decide
theorem witness_IllegalOpcodeIsReported :
    (present 0x80000000#32).Submits ∧ (present 0x80000000#32).lenOk = true ∧
      (present 0x80000000#32).word.extractLsb' 26 6 ≠ 0b000000#6 ∧
      (present 0x80000000#32).word.extractLsb' 26 6 ≠ 0b000001#6 ∧
      (present 0x80000000#32).word.extractLsb' 26 6 ≠ 0b100001#6 := by decide
theorem witness_IllegalFunctionCodeIsReported :
    (present 0x00810000#32).Submits ∧ (present 0x00810000#32).lenOk = true ∧
      (present 0x00810000#32).word.extractLsb' 26 6 = 0b000000#6 ∧
      (present 0x00810000#32).word.extractLsb' 0 6 ≠ 0b100000#6 ∧
      (present 0x00810000#32).word.extractLsb' 0 6 ≠ 0b100010#6 ∧
      (present 0x00810000#32).word.extractLsb' 0 6 ≠ 0b011000#6 ∧
      (present 0x00810000#32).word.extractLsb' 0 6 ≠ 0b011010#6 := by decide
theorem witness_FirstMatchDecidesTheStatus :
    (submitting bench 0x0043001A#32).input = [present 0x0043001A#32] ∧ (present 0x0043001A#32).Submits ∧
      (submitting bench 0x0043001A#32).CursorsLegal := by decide
theorem witness_OneStatusPerSubmission : ∃ t, step (submitting bench 0x0043001A#32) = .next t := exists_next (by decide)
theorem witness_DiagnosticsChangeNoState :
    (∃ t, step (submitting bench 0x009F0020#32) = .next t) ∧
      shown (step (submitting bench 0x009F0020#32)) = some (.addrErr .one 100) ∧
      (Status.addrErr .one 100).isDiagnostic = true := ⟨exists_next (by decide), by decide, rfl⟩
theorem witness_OnlyTheirInstructionsWriteEachBank :
    ((next? (step (submitting bench 0x04000140#32))).map State.wn ≠ some bench.wn) ∧
      ((next? (step (submitting bench 0x00220020#32))).map State.wh ≠ some bench.wh) ∧
      ((next? (step (submitting bench 0x84000000#32))).map State.rh ≠ some bench.rh) := by decide
theorem witness_HistoryWriteResynchronises :
    writesHistory (.add 1#5 2#5) = true ∧ (present 0x00220020#32).Runs (.add 1#5 2#5) ∧
      (present 0x84000000#32).Runs .lasth ∧
      ((next? (step (submitting bench 0x00220020#32))).map State.hist ≠ some bench.hist) := by decide
theorem witness_ResetPortLoadsResetValues :
    ({ bench with input := [⟨true, true, true, 0x04000140#32⟩] } : State).input = [⟨true, true, true, 0x04000140#32⟩] ∧
      (⟨true, true, true, 0x04000140#32⟩ : InPorts).rst = true := by decide
theorem witness_NothingPresentedNothingChanges :
    State.reset.input = [] ∧ (⟨false, false, true, 0#32⟩ : InPorts).rst = false ∧
      (⟨false, false, true, 0#32⟩ : InPorts).valid = false := by decide
theorem witness_CursorsStayLegal :
    (submitting bench 0x00220020#32).CursorsLegal ∧ ∃ t, step (submitting bench 0x00220020#32) = .next t :=
  ⟨by decide, exists_next (by decide)⟩
theorem witness_ValuesStayBounded :
    (submitting bench 0x00220020#32).ValuesBounded ∧ ∃ t, step (submitting bench 0x00220020#32) = .next t :=
  ⟨by decide, exists_next (by decide)⟩
theorem witness_UnwrittenReadRecordStays :
    (submitting { bench with unwrittenRead := some ⟨.hist, 9⟩ } 0x84000000#32).unwrittenRead = some ⟨.hist, 9⟩ ∧
      ∃ t, step (submitting { bench with unwrittenRead := some ⟨.hist, 9⟩ } 0x84000000#32) = .next t :=
  ⟨by decide, exists_next (by decide)⟩
theorem witness_MarksDoNotReachTheHardware :
    SameHardware bench { bench with numWritten := Vector.replicate 22 false, unwrittenRead := some ⟨.num, 1⟩ } := by decide
theorem witness_UnnameableEntriesReachNothing : SameReadable bench (bench.writeNum 2 77#32) := by decide
theorem witness_HistoryStartIsUnobservable :
    RotatedBy 3 oneResult { State.reset.writeHist 3 15#32 with wh := 4#4, rh := 4#4 } := by
  unfold RotatedBy
  decide
/-- Each clause: LASTH of an unwritten and of a written entry, either source unwritten or none, a STORE. -/
theorem witness_UnwrittenReadRaisesTheModelFault :
    ((present 0x84000000#32).Runs .lasth ∧ State.reset.Clean ∧ State.reset.wh.toNat ≤ 9 ∧
        (9 : Fin 10).val = (State.reset.rh.toNat + 9) % 10 ∧ State.reset.histWritten[(9 : Fin 10)] = false ∧
        oneResult.Clean ∧ (0 : Fin 10).val = (oneResult.rh.toNat + 9) % 10 ∧
        oneResult.histWritten[(0 : Fin 10)] = true) ∧
      ((present 0x00220020#32).Runs (.add 1#5 2#5) ∧ decaddr 1#5 = (1 : Fin 22).val ∧ decaddr 2#5 = (10 : Fin 22).val ∧
        ¬State.reset.NumReadable 1 ∧ (State.reset.writeNum 1 5#32).NumReadable 1 ∧
        ¬(State.reset.writeNum 1 5#32).NumReadable 10 ∧ bench.NumReadable 1 ∧ bench.NumReadable 10 ∧ bench.Clean) ∧
      (present 0x04000140#32).Submits ∧ decode (present 0x04000140#32).word = .instr (.store 5#10) ∧
      writesHistory (.store 5#10) = false := by decide
theorem witness_FaultedStateIsNotFinal :
    ({ bench with unwrittenRead := some ⟨.hist, 9⟩ } : State).CursorsLegal ∧
      ({ bench with unwrittenRead := some ⟨.hist, 9⟩ } : State).input = [] ∧
      (present 0x04000140#32).rst = false ∧ (⟨true, false, true, 0#32⟩ : InPorts).rst = true := by decide
/-- A run that completes on both machines. -/
theorem witness_SpecRunsAreTheCleanRuns :
    (submitting bench 0x00220020#32).Clean ∧ (∀ p ∈ (submitting bench 0x00220020#32).input, p.rst = false) ∧
      ((next? (step (submitting bench 0x00220020#32))).map State.unwrittenRead = some none) ∧
      (next? (specStep (submitting bench 0x00220020#32))).isSome = true := by decide

end Sys2Proof.Tests
end

/-! PROOFS, family 00_scope: the decimal-digit source address (spec/00_scope.md R11, spec/30_encoding.md R74). -/

namespace Sys2Proof

/-- What a decoded instruction says of its word: the opcode, the function code where it is arithmetic, and every
operand (spec/30_encoding.md R76, R77, R90). -/
theorem decode_eq_instr_cases {w : BitVec 32} {i : Instr} (h : decode w = .instr i) :
    (opcOf w = opcStore ∧ i = .store (litOf w)) ∨ (opcOf w = opcLasth ∧ i = .lasth) ∨
      (opcOf w = opcArith ∧
        ((fnOf w = fnAdd ∧ i = .add (f1Of w) (f2Of w)) ∨ (fnOf w = fnSub ∧ i = .sub (f1Of w) (f2Of w)) ∨
          (fnOf w = fnMul ∧ i = .mul (f1Of w) (f2Of w)) ∨ (fnOf w = fnDiv ∧ i = .div (f1Of w) (f2Of w)))) := by
  by_cases hs : opcOf w = opcStore
  · rw [decode_store hs, Decoded.instr.injEq] at h
    exact .inl ⟨hs, h.symm⟩
  by_cases hl : opcOf w = opcLasth
  · rw [decode_lasth hl, Decoded.instr.injEq] at h
    exact .inr (.inl ⟨hl, h.symm⟩)
  by_cases ha : opcOf w = opcArith
  · refine .inr (.inr ⟨ha, ?_⟩)
    rw [decode_arith ha] at h
    split_ifs at h with hadd hsub hmul hdiv <;> cases h
    · exact .inl ⟨hadd, rfl⟩
    · exact .inr (.inl ⟨hsub, rfl⟩)
    · exact .inr (.inr (.inl ⟨hmul, rfl⟩))
    · exact .inr (.inr (.inr ⟨hdiv, rfl⟩))
  · rw [decode_badOpcode hs hl ha] at h
    cases h

end Sys2Proof

namespace Sys2Proof.Machine

/-- A decoded arithmetic instruction's sources are the word's fields `f1` and `f2` (spec/30_encoding.md R71, R72). -/
theorem decode_arithParts {w : BitVec 32} {i : Instr} {op : AluOp} {f1 f2 : SrcField}
    (hd : decode w = .instr i) (hp : arithParts i = some (op, f1, f2)) : f1 = f1Of w ∧ f2 = f2Of w := by
  obtain ⟨-, rfl⟩ | ⟨-, rfl⟩ | ⟨-, ⟨-, rfl⟩ | ⟨-, rfl⟩ | ⟨-, rfl⟩ | ⟨-, rfl⟩⟩ := decode_eq_instr_cases hd <;>
    cases hp <;> exact ⟨rfl, rfl⟩

/-- The weighted sum of the bits is Horner's parse of them as decimal digits, first character first
(spec/00_scope.md R11). -/
theorem decaddr_eq_foldl_digits (f : SrcField) :
    decaddr f = [f.getLsbD 4, f.getLsbD 3, f.getLsbD 2, f.getLsbD 1, f.getLsbD 0].foldl
      (fun n d => 10 * n + d.toNat) 0 := by
  simp only [decaddr, List.foldl_cons, List.foldl_nil]
  ring

/-- The index of each of the 32 fields, in the order of the fields (spec/30_encoding.md R74). -/
theorem decaddr_table :
    (List.range 32).map (fun n => decaddr (BitVec.ofNat 5 n)) =
      [0, 1, 10, 11, 100, 101, 110, 111, 1000, 1001, 1010, 1011, 1100, 1101, 1110, 1111,
        10000, 10001, 10010, 10011, 10100, 10101, 10110, 10111, 11000, 11001, 11010, 11011, 11100, 11101, 11110, 11111] := by
  decide

/-- Settles O9: the sum is `decaddr`'s own definition, the parse is Horner's rule, and the decoder hands the two source
fields on. -/
theorem decimalDigitAddress : Obligations.DecimalDigitAddress := by
  refine ⟨fun f => ⟨rfl, decaddr_eq_foldl_digits f⟩, decaddr_table, fun w f1 f2 h => ?_⟩
  have hfields : f1 = f1Of w ∧ f2 = f2Of w := by
    obtain hd | hd | hd | hd := h <;> exact decode_arithParts hd rfl
  obtain ⟨rfl, rfl⟩ := hfields
  exact ⟨rfl, rfl⟩

end Sys2Proof.Machine

/-! PROOFS, family 10_state: the constant entry 0 of the number bank (spec/10_state.md R23) and the resynchronised read
cursor of the history bank (R29). -/

namespace Sys2Proof.Machine

/-! ### Entry 0 and the number cursor (spec/10_state.md R23) -/

/-- The number cursor's advance never gives 0, from any value (spec/40_register_ops.md R101). -/
theorem advanceWn_ne_zero (c : BitVec 5) : advanceWn c ≠ 0#5 := by
  intro h0
  have h := advanceWn_toNat c
  rw [h0] at h
  split at h <;> simp at h

/-- A STORE through an entry that is not 0 leaves entry 0. -/
theorem storeState_num_zero (lit : Literal) {k : Fin 22} (hk : k ≠ 0) (s : State) :
    (storeState lit k s).num[0] = s.num[0] :=
  (storeState_num lit k s 0).trans (if_neg hk.symm)

/-- A STORE advances the number cursor. -/
theorem storeState_wn (lit : Literal) (k : Fin 22) (s : State) : (storeState lit k s).wn = advanceWn s.wn := rfl

/-- LASTH keeps the number bank and its cursor. -/
theorem lasthState_num_wn (s : State) : (lasthState s).num = s.num ∧ (lasthState s).wn = s.wn := by
  simp [lasthState]

/-- A recorded arithmetic result keeps the number bank and its cursor. -/
theorem arithState_num_wn (op : AluOp) (a b : Fin 22) (k : Fin 10) (s : State) :
    (arithState op a b k s).num = s.num ∧ (arithState op a b k s).wn = s.wn := by
  simp [arithState]

/-- No instruction writes entry 0, and none brings the number cursor to 0. -/
theorem exec_keeps_num_zero {i : Instr} {s t : State} (h : exec i s = .next t) :
    t.num[0] = s.num[0] ∧ (s.wn ≠ 0#5 → t.wn ≠ 0#5) := by
  obtain ⟨lit, k, -, -, hk, rfl⟩ | ⟨-, rfl⟩ | ⟨-, -, -, src, f, -, -, -, rfl⟩ | ⟨op, -, -, a, b, k, -, -, -, -, rfl⟩ :=
    exec_next h
  · exact ⟨storeState_num_zero lit hk s, fun _ => storeState_wn lit k s ▸ advanceWn_ne_zero s.wn⟩
  · obtain ⟨hnum, hwn⟩ := lasthState_num_wn s
    rw [hnum, hwn]
    exact ⟨rfl, id⟩
  · exact ⟨rfl, id⟩
  · obtain ⟨hnum, hwn⟩ := arithState_num_wn op a b k s
    rw [hnum, hwn]
    exact ⟨rfl, id⟩

/-- Settles O32: a read of entry 0 never looks at the bank, STORE goes through an entry other than 0, and no other
instruction writes the number bank. -/
theorem registerZeroIsConstant : Obligations.RegisterZeroIsConstant := by
  refine ⟨State.readNum_zero, State.readNum_zero _, by decide, fun i s t h => ?_⟩
  obtain ⟨hnum, hwn⟩ := exec_keeps_num_zero h
  exact ⟨hnum, t.readNum_zero, hwn⟩

/-! ### The history cursors (spec/10_state.md R29) -/

/-- An instruction with parts writes the history bank exactly when both source fields are in range. -/
theorem writesHistory_of_arithParts {i : Instr} {op : AluOp} {f1 f2 : SrcField} (h : arithParts i = some (op, f1, f2)) :
    writesHistory i = decide (decaddr f1 ≤ 21 ∧ decaddr f2 ≤ 21) := by
  obtain rfl | rfl | rfl | rfl := arithParts_cases h <;> rfl

/-- Only arithmetic writes the history bank. -/
theorem isArith_of_writesHistory {i : Instr} (h : writesHistory i = true) : isArith i = true := by
  cases i with
  | store | lasth => cases h
  | add | sub | mul | div => rfl

/-- The ports submit at most one instruction. -/
theorem InPorts.Runs.unique {p : InPorts} {i j : Instr} (hi : p.Runs i) (hj : p.Runs j) : i = j :=
  Decoded.instr.inj (hi.2.2.symm.trans hj.2.2)

/-- The history bank and both its cursors are the same, but for the read cursor where `lasth` holds. -/
abbrev KeepsHistory (lasth : Prop) (s t : State) : Prop :=
  t.hist = s.hist ∧ t.wh = s.wh ∧ (t.rh ≠ s.rh → lasth)

/-- With the read cursor the same as well, no condition is needed. -/
theorem keepsHistory_of_eq {lasth : Prop} {s t : State} (hhist : t.hist = s.hist) (hwh : t.wh = s.wh)
    (hrh : t.rh = s.rh) : KeepsHistory lasth s t :=
  ⟨hhist, hwh, fun hne => (hne hrh).elim⟩

/-- LASTH keeps the history bank and its write cursor. -/
theorem lasthState_hist_wh (s : State) : (lasthState s).hist = s.hist ∧ (lasthState s).wh = s.wh := by
  simp [lasthState]

/-- An instruction that writes the history bank leaves `rh` at `wh`; any other keeps the bank and `wh`, and moves `rh`
only where it is LASTH. -/
theorem exec_history {i : Instr} {s t : State} (h : exec i s = .next t) :
    (writesHistory i = true ∧ t.rh = t.wh) ∨ (writesHistory i = false ∧ KeepsHistory (i = .lasth) s t) := by
  obtain ⟨lit, k, rfl, -, -, rfl⟩ | ⟨rfl, rfl⟩ | ⟨op, f1, f2, src, f, hp, hf, hlt, rfl⟩ |
    ⟨op, f1, f2, a, b, k, hp, ha, hb, -, rfl⟩ := exec_next h
  · exact .inr ⟨rfl, keepsHistory_of_eq rfl rfl rfl⟩
  · obtain ⟨hhist, hwh⟩ := lasthState_hist_wh s
    exact .inr ⟨rfl, hhist, hwh, fun _ => rfl⟩
  · have hout : ¬(decaddr f1 ≤ 21 ∧ decaddr f2 ≤ 21) := by
      obtain rfl | rfl := hf <;> omega
    exact .inr ⟨(writesHistory_of_arithParts hp).trans (decide_eq_false hout), keepsHistory_of_eq rfl rfl rfl⟩
  · have hin : decaddr f1 ≤ 21 ∧ decaddr f2 ≤ 21 := by omega
    exact .inl ⟨(writesHistory_of_arithParts hp).trans (decide_eq_true hin), rfl⟩

/-- A step without reset runs an instruction that writes the history bank and leaves `rh` at `wh`, or it runs none and
keeps the bank and `wh`, with `rh` moved only by LASTH. -/
theorem step_history {s t : State} {p : InPorts} {rest : List InPorts} (hs : s.input = p :: rest) (hr : p.rst = false)
    (h : step s = .next t) :
    ((∃ i, writesHistory i = true ∧ p.Runs i) ∧ t.rh = t.wh) ∨
      (¬(∃ i, writesHistory i = true ∧ p.Runs i) ∧ KeepsHistory (p.Runs .lasth) s t) := by
  obtain ⟨hnil, -⟩ | ⟨p', rest', hs', hcases⟩ := step_next h
  · simp [hs] at hnil
  obtain ⟨rfl, rfl⟩ := List.cons.inj (hs.symm.trans hs')
  obtain ⟨hrst, -⟩ | ⟨-, hv, rfl⟩ | ⟨-, r, -, hnone, rfl⟩ | ⟨i, hi, hx⟩ := hcases
  · simp [hr] at hrst
  · refine .inr ⟨?_, keepsHistory_of_eq rfl rfl rfl⟩
    rintro ⟨i, -, ⟨-, hvalid⟩, -⟩
    simp [hv] at hvalid
  · refine .inr ⟨?_, keepsHistory_of_eq rfl rfl rfl⟩
    rintro ⟨i, -, -, hl, hd⟩
    exact hnone hl i hd
  · obtain ⟨hw, hrh⟩ | ⟨hw, hhist, hwh, hrh⟩ := exec_history hx
    · exact .inl ⟨⟨i, hw, hi⟩, hrh⟩
    · refine .inr ⟨?_, hhist, hwh, fun hne => hrh hne ▸ hi⟩
      rintro ⟨j, hj, hpj⟩
      rw [hi.unique hpj, hj] at hw
      cases hw

/-- Settles O42: each clause in each of the two cases of `step_history`. -/
theorem historyWriteResynchronises : Obligations.HistoryWriteResynchronises := by
  intro s t p rest hs hr h
  obtain ⟨hruns, hsync⟩ | ⟨hnone, hhist, hwh, hrh⟩ := step_history hs hr h
  · obtain ⟨i, hw, hi⟩ := hruns
    exact ⟨fun _ => hsync, fun _ => hsync, fun hno => (hno ⟨i, hw, hi⟩).elim,
      fun _ => ⟨i, isArith_of_writesHistory hw, hi⟩⟩
  · exact ⟨fun hruns => (hnone hruns).elim, fun hne => (hne hhist).elim, fun _ => hrh, fun hne => (hne hwh).elim⟩

end Sys2Proof.Machine

/-! PROOFS, family 30_encoding: what every opcode and function code selects (spec/30_encoding.md R76, R77). -/

namespace Sys2Proof

section
variable (f1 f2 : SrcField) (lit : Literal) (fn : BitVec 6)

/-- Under the opcode of STORE only the literal is looked at (spec/30_encoding.md R72). -/
theorem decode_packFields_store : decode (packFields opcStore f1 f2 lit fn) = .instr (.store lit) := by
  rw [decode_store (opcOf_packFields ..), litOf_packFields]

/-- Under the opcode of LASTH no other field is looked at (spec/30_encoding.md R72). -/
theorem decode_packFields_lasth : decode (packFields opcLasth f1 f2 lit fn) = .instr .lasth :=
  decode_lasth (opcOf_packFields ..)

/-- Under the arithmetic opcode the function code selects the operation of the two source fields, and the literal is not
looked at (spec/30_encoding.md R72, R77). -/
theorem decode_packFields_arith :
    decode (packFields opcArith f1 f2 lit fn) =
      if fn = fnAdd then .instr (.add f1 f2)
      else if fn = fnSub then .instr (.sub f1 f2)
      else if fn = fnMul then .instr (.mul f1 f2)
      else if fn = fnDiv then .instr (.div f1 f2)
      else .badFunction := by
  rw [decode_arith (opcOf_packFields ..), fnOf_packFields, f1Of_packFields, f2Of_packFields]

/-- Every opcode but the three of spec/30_encoding.md R76 is illegal. -/
theorem decode_packFields_badOpcode {opc : BitVec 6} (harith : opc ≠ opcArith) (hstore : opc ≠ opcStore)
    (hlasth : opc ≠ opcLasth) : decode (packFields opc f1 f2 lit fn) = .badOpcode := by
  apply decode_badOpcode <;> rwa [opcOf_packFields]

/-- Every function code but the four of spec/30_encoding.md R77 is illegal under the arithmetic opcode. -/
theorem decode_packFields_badFunction {fn : BitVec 6} (hadd : fn ≠ fnAdd) (hsub : fn ≠ fnSub) (hmul : fn ≠ fnMul)
    (hdiv : fn ≠ fnDiv) : decode (packFields opcArith f1 f2 lit fn) = .badFunction := by
  rw [decode_packFields_arith, if_neg hadd, if_neg hsub, if_neg hmul, if_neg hdiv]

end

end Sys2Proof

namespace Sys2Proof.Machine

/-- A word of the right length with an illegal opcode is answered with OPC_ERR (spec/30_encoding.md R78). -/
theorem submit_badOpcode {w : BitVec 32} (hd : decode w = .badOpcode) (s : State) :
    submit true w s = .next (s.report .opcErr) := by
  rw [submit, if_neg (by decide), hd]

/-- A word of the right length with an illegal function code is answered with FUNCT_ERR (spec/30_encoding.md R78). -/
theorem submit_badFunction {w : BitVec 32} (hd : decode w = .badFunction) (s : State) :
    submit true w s = .next (s.report .functErr) := by
  rw [submit, if_neg (by decide), hd]

/-- Settles O6: the decoder on packed fields, opcode by opcode, with the function code deciding under 000000, and the
diagnostic of each of the two illegal classes. -/
theorem opcodeMapSelectsTheOperation : Obligations.OpcodeMapSelectsTheOperation := by
  intro f1 f2 lit fn
  have harith := decode_packFields_arith f1 f2 lit
  refine ⟨decode_packFields_store .., decode_packFields_lasth .., ?add, ?sub, ?mul, ?div,
    fun opc s h0 h1 h33 => ⟨submit_badOpcode (decode_packFields_badOpcode f1 f2 lit fn h0 h1 h33) s, rfl⟩,
    fun s hadd hsub hmul hdiv =>
      ⟨submit_badFunction (decode_packFields_badFunction f1 f2 lit hadd hsub hmul hdiv) s, rfl⟩⟩
  case add => exact harith fnAdd
  case sub => exact harith fnSub
  case mul => exact harith fnMul
  case div => exact harith fnDiv

end Sys2Proof.Machine

/-! PROOFS, family 40_register_ops: what STORE and `recordHistory` write, and what a later read of it returns
(spec/40_register_ops.md R100, R101, R103, R107). -/

namespace Sys2Proof.Machine

/-! ### A write and the read after it -/

/-- A read of a writable number-bank entry returns what was written there. -/
theorem State.readNum_writeNum_self (s : State) {i : Fin 22} (h0 : i ≠ 0) (v : Word) :
    (s.writeNum i v).readNum i = v := by
  rw [State.readNum, if_neg h0]
  simp

/-- A written number-bank entry is marked. -/
theorem State.writeNum_numWritten_self (s : State) (i : Fin 22) (v : Word) :
    (s.writeNum i v).numWritten[i] = true := by
  simp

/-- The history bank after a write, entry by entry. -/
theorem State.writeHist_hist_getElem (s : State) (j k : Fin 10) (v : Word) :
    (s.writeHist j v).hist[k] = if k = j then v else s.hist[k] := by
  simp [Vector.getElem_set, Fin.ext_iff, eq_comm]

/-- The marks of the history bank after a write, entry by entry. -/
theorem State.writeHist_histWritten_getElem (s : State) (j k : Fin 10) (v : Word) :
    (s.writeHist j v).histWritten[k] = if k = j then true else s.histWritten[k] := by
  simp [Vector.getElem_set, Fin.ext_iff, eq_comm]

/-! ### STORE (spec/40_register_ops.md R100, R101) -/

/-- The number cursor's advance is a legal cursor, from any value. -/
theorem advanceWn_legal (c : BitVec 5) : 1 ≤ (advanceWn c).toNat ∧ (advanceWn c).toNat ≤ 21 := by
  rw [advanceWn_toNat]
  split <;> omega

/-- A STORE through a writable entry leaves the literal to be read there. -/
theorem storeState_readNum_self (lit : Literal) {i : Fin 22} (h0 : i ≠ 0) (s : State) :
    (storeState lit i s).readNum i = literalValue lit :=
  (State.readNum_congr rfl i).trans (s.readNum_writeNum_self h0 (literalValue lit))

/-- The entry a STORE wrote is readable. -/
theorem storeState_numReadable_self (lit : Literal) (i : Fin 22) (s : State) : (storeState lit i s).NumReadable i :=
  .inr (s.writeNum_numWritten_self i (literalValue lit))

/-- Settles O13: STORE goes through the entry its legal cursor names, and `storeState` is what it leaves there. -/
theorem storeWritesTheCursorSlot : Obligations.StoreWritesTheCursorSlot := by
  intro lit s h1 h21
  obtain ⟨i, -, hi, h0⟩ := numSlot_legal ⟨h1, h21⟩
  have hval : (literalValue lit).toNat = lit.toNat := literalValue_toNat lit
  obtain ⟨hlow, hhigh⟩ := advanceWn_legal s.wn
  refine ⟨storeState lit i s, literalValue lit, execStore_eq hi.symm h0, rfl, hval, by omega, ?entry,
    storeState_num_zero lit h0 s, advanceWn_toNat s.wn, hlow, hhigh, rfl, rfl⟩
  case entry =>
    intro j hj
    obtain rfl : j = i := Fin.ext (hj.trans hi.symm)
    exact ⟨storeState_readNum_self lit h0 s, (storeState_num lit j s j).trans (if_pos rfl),
      (storeState_numWritten lit j s j).trans (if_pos rfl)⟩

/-! ### STORE, then a read of the slot (spec/40_register_ops.md R107) -/

/-- The exact sum reduced to a word is the sum of the words (spec/41_arithmetic.md R121, R122). -/
theorem aluResult_add (x y : Word) : aluResult .add x y = x + y := by
  simp [aluResult, AluOp.exact, BitVec.ofInt_add]

/-- An arithmetic instruction that reads readable entries leaves the record of unwritten reads. -/
theorem arithState_unwrittenRead_of_readable {op : AluOp} {i j : Fin 22} {k : Fin 10} {s : State}
    (hi : s.NumReadable i) (hj : s.NumReadable j) : (arithState op i j k s).unwrittenRead = s.unwrittenRead := by
  rw [arithState_unwrittenRead, if_pos hj, if_pos hi]

/-- Below 100 only the last two decimal digits count, so a source field names 0, 1, 10 or 11
(spec/30_encoding.md R75). -/
theorem decaddr_of_lt_hundred {f : SrcField} (h : decaddr f < 100) :
    decaddr f = 0 ∨ decaddr f = 1 ∨ decaddr f = 10 ∨ decaddr f = 11 := by
  have htens := Bool.toNat_le (f.getLsbD 1)
  have hones := Bool.toNat_le (f.getLsbD 0)
  unfold decaddr at h ⊢
  omega

/-- The writable slots that a source field names. -/
theorem exists_decaddr_eq_iff {n : Nat} (h1 : 1 ≤ n) (h21 : n ≤ 21) :
    (∃ f : SrcField, decaddr f = n) ↔ n = 1 ∨ n = 10 ∨ n = 11 := by
  constructor
  · rintro ⟨f, rfl⟩
    have hf := decaddr_of_lt_hundred (f := f) (by omega)
    omega
  · rintro (rfl | rfl | rfl)
    · exact ⟨1#5, by decide⟩
    · exact ⟨2#5, by decide⟩
    · exact ⟨3#5, by decide⟩

/-- An instruction with parts runs `arith` on them (spec/41_arithmetic.md R120). -/
theorem exec_of_arithParts {i : Instr} {op : AluOp} {f1 f2 : SrcField} (h : arithParts i = some (op, f1, f2))
    (s : State) : exec i s = arith op f1 f2 s := by
  cases i with
  | store | lasth => cases h
  | add | sub | mul | div => cases h; rfl

/-- ADD of a field that names a readable entry and of r0 reports the entry's value and records no unwritten read. -/
theorem exec_add_r0 {f : SrcField} {i : Fin 22} {s : State} (hf : decaddr f = i.val) (hi : s.NumReadable i)
    (hwh : s.wh.toNat ≤ 9) :
    ∃ u, exec (.add f 0#5) s = .next u ∧ u.out = some (.result (s.readNum i) false) ∧
      u.unwrittenRead = s.unwrittenRead := by
  obtain ⟨k, -, hk⟩ := histSlot_legal hwh
  have hsum : aluResult .add (s.readNum i) (s.readNum 0) = s.readNum i := by
    rw [aluResult_add, s.readNum_zero, BitVec.add_zero]
  have hout : (arithState .add i 0 k s).out = some (.result (aluResult .add (s.readNum i) (s.readNum 0)) false) := rfl
  exact ⟨arithState .add i 0 k s, (exec_of_arithParts rfl s).trans (arith_eq hf rfl hk.symm), hsum ▸ hout,
    arithState_unwrittenRead_of_readable hi (.inl rfl)⟩

/-- Settles O15: the write is read back, ADD with r0 shows it, and the fields' digits name 1, 10 and 11 only. -/
theorem storeThenLoadReturnsTheLiteral : Obligations.StoreThenLoadReturnsTheLiteral := by
  refine ⟨?load, ?observe, fun n => exists_decaddr_eq_iff⟩
  case load =>
    intro lit s i h0 hi
    refine ⟨_, storeNumber_eq hi.symm h0, ?_, .inr (s.writeNum_numWritten_self i (literalValue lit))⟩
    exact (congrArg BitVec.toNat (s.readNum_writeNum_self h0 (literalValue lit))).trans (literalValue_toNat lit)
  case observe =>
    intro lit s f h1 hf hwh
    have h21 : s.wn.toNat ≤ 21 := by
      have hslot := decaddr_of_lt_hundred (f := f) (by omega)
      omega
    obtain ⟨i, -, hi, h0⟩ := numSlot_legal ⟨h1, h21⟩
    obtain ⟨u, hadd, hout, hrecord⟩ :=
      exec_add_r0 (s := storeState lit i s) (hf.trans hi.symm) (storeState_numReadable_self lit i s) hwh
    rw [storeState_readNum_self lit h0] at hout
    exact ⟨storeState lit i s, u, execStore_eq hi.symm h0, hadd, hout, hrecord⟩

/-! ### `recordHistory` (spec/40_register_ops.md R103) -/

/-- Settles O23: `recordHistory` goes through the entry its legal cursor names and sets both cursors to the advance. -/
theorem recordHistoryWritesAndResynchronises : Obligations.RecordHistoryWritesAndResynchronises := by
  intro v s h
  obtain ⟨j, -, hj⟩ := histSlot_legal h
  have hwh := advanceWh_toNat s.wh
  refine ⟨_, recordHistory_eq hj.symm, fun k hk => ?written, fun k hk => ?others, fun hlt => ?advance,
    fun hlast => ?wrap, rfl⟩
  case written =>
    have hkj : k = j := Fin.ext (hk.trans hj.symm)
    exact ⟨(s.writeHist_hist_getElem j k v).trans (if_pos hkj),
      (s.writeHist_histWritten_getElem j k v).trans (if_pos hkj)⟩
  case others =>
    have hkj : k ≠ j := fun heq => hk (heq ▸ hj)
    exact ⟨(s.writeHist_hist_getElem j k v).trans (if_neg hkj),
      (s.writeHist_histWritten_getElem j k v).trans (if_neg hkj)⟩
  case advance =>
    show (advanceWh s.wh).toNat = s.wh.toNat + 1
    omega
  case wrap =>
    show (advanceWh s.wh).toNat = 0
    omega

end Sys2Proof.Machine

/-! PROOFS, family 60_exceptions: the diagnostics of the decoder (spec/60_exceptions.md R145, R146). -/

namespace Sys2Proof

/-- A function code outside the four of spec/30_encoding.md R77 is illegal, whatever the source fields hold. -/
theorem decode_badFunction {w : BitVec 32} (harith : opcOf w = opcArith) (hadd : fnOf w ≠ fnAdd) (hsub : fnOf w ≠ fnSub)
    (hmul : fnOf w ≠ fnMul) (hdiv : fnOf w ≠ fnDiv) : decode w = .badFunction := by
  rw [decode_arith harith, if_neg hadd, if_neg hsub, if_neg hmul, if_neg hdiv]

end Sys2Proof

namespace Sys2Proof.Machine

/-- A step that only consumes the ports and reports a status keeps the block, and its ports show that status
(spec/60_exceptions.md R142, R143). -/
theorem step_report_effect {s : State} {rest : List InPorts} {r : Status}
    (h : step s = .next (State.report r { s with input := rest })) :
    ∃ t, step s = .next t ∧ SameBlock s t ∧ Reports s t r ∧ t.input = rest ∧ t.outPorts = r.ports := by
  refine ⟨_, h, ?block, ?reports, rfl, rfl⟩
  case block => simp [SameBlock]
  case reports => simp [Reports]

/-- Settles O36: the word decodes to an illegal opcode, and the step only reports it. -/
theorem illegalOpcodeIsReported : Obligations.IllegalOpcodeIsReported := by
  intro s p rest hs hrst hvalid hlen harith hstore hlasth
  have hdecode : decode p.word = .badOpcode := decode_badOpcode hstore hlasth harith
  obtain ⟨t, hstep, hblock, hreports, hinput, hports⟩ := step_report_effect (step_opcErr hs ⟨hrst, hvalid⟩ hlen hdecode)
  exact ⟨t, hstep, hblock, hreports, hinput, congrArg OutPorts.kind hports⟩

/-- Settles O37: the word decodes to an illegal function code before any source field is looked at, and the step only
reports it. -/
theorem illegalFunctionCodeIsReported : Obligations.IllegalFunctionCodeIsReported := by
  intro s p rest hs hrst hvalid hlen harith hadd hsub hmul hdiv
  have hdecode : decode p.word = .badFunction := decode_badFunction harith hadd hsub hmul hdiv
  obtain ⟨t, hstep, hblock, hreports, hinput, hports⟩ :=
    step_report_effect (step_functErr hs ⟨hrst, hvalid⟩ hlen hdecode)
  exact ⟨t, hstep, hblock, hreports, hinput, congrArg OutPorts.kind hports⟩

end Sys2Proof.Machine

/-! PROOFS, family other. What each instruction leaves in each field, and one rule for what every step keeps of a state
and one for what every step keeps between two states. -/

namespace Sys2Proof.Machine

/-! ### The fields after each instruction

A STORE keeps every field but the number bank, its marks, `wn` and the outputs by definition. -/

section
variable (lit : Literal) (i : Fin 22) (s : State)

@[simp] theorem storeState_out : (storeState lit i s).out = some (.stored (literalValue lit) s.wn) := rfl
@[simp] theorem storeState_sink :
    (storeState lit i s).sink = s.sink ++ [.stored (literalValue lit) s.wn] := rfl

end

section
variable (s : State)

@[simp] theorem lasthState_num : (lasthState s).num = s.num := (lasthState_num_wn s).1
@[simp] theorem lasthState_wn : (lasthState s).wn = s.wn := (lasthState_num_wn s).2
@[simp] theorem lasthState_hist : (lasthState s).hist = s.hist := (lasthState_hist_wh s).1
@[simp] theorem lasthState_wh : (lasthState s).wh = s.wh := (lasthState_hist_wh s).2
@[simp] theorem lasthState_numWritten : (lasthState s).numWritten = s.numWritten := by simp [lasthState]
@[simp] theorem lasthState_histWritten : (lasthState s).histWritten = s.histWritten := by simp [lasthState]
@[simp] theorem lasthState_input : (lasthState s).input = s.input := by simp [lasthState]
@[simp] theorem lasthState_out : (lasthState s).out = some (.lastValue s.hist[prevEntry s.rh]) := rfl
@[simp] theorem lasthState_sink : (lasthState s).sink = s.sink ++ [.lastValue s.hist[prevEntry s.rh]] := by
  simp [lasthState, State.lastValue]

end

section
variable (op : AluOp) (a b : Fin 22) (k : Fin 10) (s : State)

@[simp] theorem arithState_num : (arithState op a b k s).num = s.num := (arithState_num_wn op a b k s).1
@[simp] theorem arithState_wn : (arithState op a b k s).wn = s.wn := (arithState_num_wn op a b k s).2
@[simp] theorem arithState_numWritten : (arithState op a b k s).numWritten = s.numWritten := by simp [arithState]
@[simp] theorem arithState_wh : (arithState op a b k s).wh = advanceWh s.wh := rfl
@[simp] theorem arithState_rh : (arithState op a b k s).rh = advanceWh s.wh := rfl
@[simp] theorem arithState_input : (arithState op a b k s).input = s.input := by simp [arithState]
@[simp] theorem arithState_out :
    (arithState op a b k s).out =
      some (.result (aluResult op (s.readNum a) (s.readNum b)) (divzOf op (s.readNum b))) := rfl
@[simp] theorem arithState_sink :
    (arithState op a b k s).sink =
      s.sink ++ [.result (aluResult op (s.readNum a) (s.readNum b)) (divzOf op (s.readNum b))] := by
  simp [arithState]

end

/-! The history bank and its marks after an arithmetic result, as a whole. -/

theorem arithState_hist_set (op : AluOp) (a b : Fin 22) (k : Fin 10) (s : State) :
    (arithState op a b k s).hist = s.hist.set k.val (aluResult op (s.readNum a) (s.readNum b)) k.isLt := by
  simp [arithState]

theorem arithState_histWritten_set (op : AluOp) (a b : Fin 22) (k : Fin 10) (s : State) :
    (arithState op a b k s).histWritten = s.histWritten.set k.val true k.isLt := by
  simp [arithState]

/-! ### Everything an instruction can answer -/

/-- STORE stops at an illegal cursor (log 5). -/
theorem execStore_fault {lit : Literal} {s : State} (h : ¬(1 ≤ s.wn.toNat ∧ s.wn.toNat ≤ 21)) :
    execStore lit s = .fault (.numCursorIllegal s.wn) := by
  rw [execStore, storeNumber, numSlot_eq_none.2 h, thenReport]

/-- A STORE goes through the entry its cursor names, or its cursor is illegal. -/
theorem execStore_cases (lit : Literal) (s : State) :
    (∃ k : Fin 22, s.wn.toNat = k.val ∧ k ≠ 0 ∧ execStore lit s = .next (storeState lit k s)) ∨
      (¬(1 ≤ s.wn.toNat ∧ s.wn.toNat ≤ 21) ∧ execStore lit s = .fault (.numCursorIllegal s.wn)) := by
  by_cases hl : 1 ≤ s.wn.toNat ∧ s.wn.toNat ≤ 21
  · obtain ⟨k, -, hk, h0⟩ := numSlot_legal hl
    exact .inl ⟨k, hk.symm, h0, execStore_eq hk.symm h0⟩
  · exact .inr ⟨hl, execStore_fault hl⟩

/-- An arithmetic instruction reports an out-of-range source, stops at an illegal cursor, or records its result. -/
theorem arith_cases (op : AluOp) (f1 f2 : SrcField) (s : State) :
    (21 < decaddr f1 ∧ arith op f1 f2 s = .next (s.report (.addrErr .one (decaddr f1)))) ∨
      (decaddr f1 ≤ 21 ∧ 21 < decaddr f2 ∧ arith op f1 f2 s = .next (s.report (.addrErr .two (decaddr f2)))) ∨
      (decaddr f1 ≤ 21 ∧ decaddr f2 ≤ 21 ∧ 9 < s.wh.toNat ∧ arith op f1 f2 s = .fault (.histCursorIllegal s.wh)) ∨
      ∃ (a b : Fin 22) (k : Fin 10), decaddr f1 = a.val ∧ decaddr f2 = b.val ∧ s.wh.toNat = k.val ∧
        arith op f1 f2 s = .next (arithState op a b k s) := by
  by_cases h1 : 21 < decaddr f1
  · exact .inl ⟨h1, arith_source_one h1⟩
  rw [not_lt] at h1
  by_cases h2 : 21 < decaddr f2
  · exact .inr (.inl ⟨h1, h2, arith_source_two h1 h2⟩)
  rw [not_lt] at h2
  by_cases hk : 9 < s.wh.toNat
  · exact .inr (.inr (.inl ⟨h1, h2, hk, arith_fault h1 h2 hk⟩))
  · exact .inr (.inr (.inr ⟨⟨decaddr f1, by omega⟩, ⟨decaddr f2, by omega⟩, ⟨s.wh.toNat, by omega⟩, rfl, rfl, rfl,
      arith_eq rfl rfl rfl⟩))

/-! ### What every step keeps -/

/-- What holds after a reset and is kept by reports, quiet steps, the consumption of ports and every instruction is kept
by every step. -/
theorem step_preserves {P : State → Prop} (hinput : ∀ s l, P s → P { s with input := l })
    (hquiet : ∀ s, P s → P s.quiet) (hreport : ∀ s r, P s → P (s.report r)) (hreset : ∀ s : State, P s.applyReset)
    (hexec : ∀ i s t, P s → exec i s = .next t → P t) {s t : State} (hs : P s) (h : step s = .next t) : P t := by
  obtain ⟨-, rfl⟩ | ⟨p, rest, -, ⟨-, rfl⟩ | ⟨-, -, rfl⟩ | ⟨-, r, -, -, rfl⟩ | ⟨i, -, hx⟩⟩ := step_next h
  · exact hquiet s hs
  · exact hreset _
  · exact hquiet _ (hinput s rest hs)
  · exact hreport _ r (hinput s rest hs)
  · exact hexec i _ t (hinput s rest hs) hx

/-- What holds between two states and is kept when both run the same instruction. Where one history cursor is illegal,
the other is the same; the two arithmetic results may go to different entries. -/
structure ExecClosed (R : State → State → Prop) : Prop where
  report : ∀ {s s'} (r : Status), R s s' → R (s.report r) (s'.report r)
  wn : ∀ {s s'}, R s s' → s'.wn = s.wn
  store : ∀ {s s'} (lit : Literal) (i : Fin 22), s.wn.toNat = i.val → R s s' →
    R (storeState lit i s) (storeState lit i s')
  lasth : ∀ {s s'}, R s s' → R (lasthState s) (lasthState s')
  wh : ∀ {s s'}, R s s' → 9 < s.wh.toNat → s'.wh = s.wh
  arith : ∀ {s s'} (op : AluOp) {f1 f2 : SrcField} {a b : Fin 22} {k : Fin 10}, decaddr f1 = a.val →
    decaddr f2 = b.val → s.wh.toNat = k.val → R s s' →
    ∃ k' : Fin 10, s'.wh.toNat = k'.val ∧ R (arithState op a b k s) (arithState op a b k' s')

/-- What holds between two states and is kept when both do the same step. -/
structure StepClosed (R : State → State → Prop) : Prop extends ExecClosed R where
  input : ∀ {s s'}, R s s' → s'.input = s.input
  consume : ∀ {s s'} (l : List InPorts), R s s' → R { s with input := l } { s' with input := l }
  quiet : ∀ {s s'}, R s s' → R s.quiet s'.quiet
  reset : ∀ {s s'}, R s s' → R s.applyReset s'.applyReset

section
variable {R : State → State → Prop} {s s' : State}

/-- An arithmetic instruction keeps such a relation, or both states stop for the same reason. -/
theorem ExecClosed.arith_rel (hR : ExecClosed R) (h : R s s') (op : AluOp) (f1 f2 : SrcField) :
    OutcomeRel R (Machine.arith op f1 f2 s) (Machine.arith op f1 f2 s') := by
  obtain ⟨h1, he⟩ | ⟨h1, h2, he⟩ | ⟨h1, h2, hk, he⟩ | ⟨a, b, k, ha, hb, hk, he⟩ := arith_cases op f1 f2 s
  · rw [he, arith_source_one h1]
    exact hR.report _ h
  · rw [he, arith_source_two h1 h2]
    exact hR.report _ h
  · have hwh := hR.wh h hk
    rw [he, arith_fault h1 h2 (hwh ▸ hk), hwh]
    exact rfl
  · obtain ⟨k', hk', hrel⟩ := hR.arith op ha hb hk h
    rw [he, arith_eq ha hb hk']
    exact hrel

/-- An instruction keeps such a relation, or both states stop for the same reason. -/
theorem ExecClosed.exec_rel (hR : ExecClosed R) (h : R s s') (i : Instr) :
    OutcomeRel R (exec i s) (exec i s') := by
  obtain ⟨lit, rfl, -⟩ | ⟨rfl, -⟩ | ⟨op, f1, f2, hp, -⟩ := exec_cases i s
  · show OutcomeRel R (execStore lit s) (execStore lit s')
    have hwn := hR.wn h
    obtain ⟨k, hk, h0, he⟩ | ⟨hl, he⟩ := execStore_cases lit s
    · rw [he, execStore_eq (hwn ▸ hk) h0]
      exact hR.store lit k hk h
    · rw [he, execStore_fault (hwn ▸ hl), hwn]
      exact rfl
  · exact hR.lasth h
  · rw [exec_of_arithParts hp, exec_of_arithParts hp]
    exact hR.arith_rel h op f1 f2

/-- A step keeps such a relation, or both states stop for the same reason. -/
theorem StepClosed.step_rel (hR : StepClosed R) (h : R s s') : OutcomeRel R (step s) (step s') := by
  have hin := hR.input h
  cases hs : s.input with
  | nil =>
    rw [step_nil hs, step_nil (hin.trans hs)]
    exact hR.quiet h
  | cons p rest =>
    have hc := hR.consume rest h
    rw [step_cons hs, step_cons (hin.trans hs), applyPorts, applyPorts]
    split_ifs
    · exact hR.reset hc
    · rw [submit, submit]
      split_ifs
      · exact hR.report _ hc
      · cases decode p.word with
        | instr i => exact hR.exec_rel hc i
        | badOpcode | badFunction => exact hR.report _ hc
    · exact hR.quiet hc

end

end Sys2Proof.Machine

/-! PROOFS, family other: the invariants of every step (spec/10_state.md sections 2 and 5). -/

namespace Sys2Proof.Machine

/-! ### Legal cursors (spec/10_state.md R33) -/

theorem advanceWh_legal (c : BitVec 4) : (advanceWh c).toNat ≤ 9 := by
  have h := advanceWh_toNat c
  omega

/-- An instruction keeps legal cursors legal. -/
theorem exec_keeps_cursorsLegal {i : Instr} {s t : State} (hs : s.CursorsLegal) (h : exec i s = .next t) :
    t.CursorsLegal := by
  obtain ⟨hlow, hhigh, hwh, hrh⟩ := hs
  obtain ⟨lit, k, -, -, -, rfl⟩ | ⟨-, rfl⟩ | ⟨-, -, -, src, f, -, -, -, rfl⟩ | ⟨op, -, -, a, b, k, -, -, -, -, rfl⟩ :=
    exec_next h
  · obtain ⟨hlow', hhigh'⟩ := advanceWn_legal s.wn
    exact ⟨hlow', hhigh', hwh, hrh⟩
  · have hrh' := lasthState_rh s
    exact ⟨by simpa using hlow, by simpa using hhigh, by simpa using hwh, by omega⟩
  · exact ⟨hlow, hhigh, hwh, hrh⟩
  · have hadv := advanceWh_legal s.wh
    exact ⟨by simpa using hlow, by simpa using hhigh, hadv, hadv⟩

/-- Settles O50: the cursors of `State.reset` are 1, 0 and 0. -/
theorem cursorsAreLegalAtReset : Obligations.CursorsAreLegalAtReset := by
  unfold Obligations.CursorsAreLegalAtReset
  decide

/-- Settles O49: a reset gives legal cursors, an instruction keeps them legal, and nothing else moves them. -/
theorem cursorsStayLegal : Obligations.CursorsStayLegal := fun _ _ =>
  step_preserves (P := State.CursorsLegal) (fun _ _ => id) (fun _ => id) (fun _ _ => id)
    (fun _ => cursorsAreLegalAtReset) fun _ _ _ => exec_keeps_cursorsLegal

/-! ### The value ranges (spec/10_state.md R25, spec/41_arithmetic.md R128) -/

/-- A read that finds an entry the spec gives a value returns a literal or 0. -/
theorem readNum_le {s : State} (hs : s.ValuesBounded) {i : Fin 22} (hi : s.NumReadable i) :
    (s.readNum i).toNat ≤ 1023 := by
  by_cases h0 : i = 0
  · subst h0
    simp [s.readNum_zero]
  · rw [State.readNum, if_neg h0]
    exact hs.1 i h0 (hi.resolve_left h0)

/-- A word no larger than the largest literal is its own signed value. -/
theorem toInt_of_le_literal {x : Word} (h : x.toNat ≤ 1023) : x.toInt = x.toNat :=
  BitVec.toInt_eq_toNat_of_lt (by omega)

/-- The exact result of two literals is in the range of spec/41_arithmetic.md R128. -/
theorem AluOp.exact_bounded (op : AluOp) {m n : Nat} (hm : m ≤ 1023) (hn : n ≤ 1023) :
    -1023 ≤ op.exact m n ∧ op.exact m n ≤ 1046529 := by
  cases op with
  | add | sub => simp only [AluOp.exact]; omega
  | mul =>
    have hmul : m * n ≤ 1023 * 1023 := Nat.mul_le_mul hm hn
    rw [AluOp.exact, ← Int.natCast_mul]
    omega
  | div =>
    simp only [AluOp.exact]
    split
    · decide
    · have hdiv : m / n ≤ m := Nat.div_le_self m n
      rw [← Int.ofNat_tdiv]
      generalize m / n = q at hdiv ⊢
      omega

/-- The recorded result of two literals is in that range: it does not wrap. -/
theorem aluResult_bounded (op : AluOp) {x y : Word} (hx : x.toNat ≤ 1023) (hy : y.toNat ≤ 1023) :
    -1023 ≤ (aluResult op x y).toInt ∧ (aluResult op x y).toInt ≤ 1046529 := by
  have hexact := op.exact_bounded hx hy
  rw [aluResult, toInt_of_le_literal hx, toInt_of_le_literal hy, BitVec.toInt_ofInt,
    Int.bmod_eq_of_le (by omega) (by omega)]
  exact hexact

/-- After an arithmetic instruction no unwritten read is recorded exactly where none was and both entries are
readable. -/
theorem arithState_clean_iff {op : AluOp} {a b : Fin 22} {k : Fin 10} {s : State} :
    (arithState op a b k s).Clean ↔ s.Clean ∧ s.NumReadable a ∧ s.NumReadable b := by
  rw [State.Clean, arithState_unwrittenRead]
  split_ifs with hb ha ha
  · exact ⟨fun hc => ⟨hc, ha, hb⟩, And.left⟩
  · simp [ha]
  · simp [hb]
  · simp [hb]

/-- After a LASTH no unwritten read is recorded exactly where none was and the entry read is written. -/
theorem lasthState_clean_iff {s : State} :
    (lasthState s).Clean ↔ s.Clean ∧ s.histWritten[prevEntry s.rh] = true := by
  rw [State.Clean, lasthState_unwrittenRead]
  split_ifs with hw
  · exact ⟨fun hc => ⟨hc, hw⟩, And.left⟩
  · simp [hw]

/-- STORE keeps the value ranges: it writes a literal. -/
theorem storeState_valuesBounded {s : State} (hs : s.ValuesBounded) (lit : Literal) (i : Fin 22) :
    (storeState lit i s).ValuesBounded := by
  refine ⟨fun j h0 hw => ?_, hs.2⟩
  rw [storeState_numWritten] at hw
  rw [storeState_num]
  split_ifs at hw ⊢ with hj
  · have hlit := lit.isLt
    rw [literalValue_toNat]
    omega
  · exact hs.1 j h0 hw

/-- LASTH keeps the value ranges: it writes no bank, and a clean state after it was clean before. -/
theorem lasthState_valuesBounded {s : State} (hs : s.ValuesBounded) : (lasthState s).ValuesBounded := by
  refine ⟨?_, fun hc => ?_⟩
  · simpa using hs.1
  · simpa using hs.2 (lasthState_clean_iff.1 hc).1

/-- An arithmetic instruction keeps the value ranges: where the state after it is clean, it read two literals. -/
theorem arithState_valuesBounded {s : State} (hs : s.ValuesBounded) (op : AluOp) (a b : Fin 22) (k : Fin 10) :
    (arithState op a b k s).ValuesBounded := by
  refine ⟨?_, fun hc j hw => ?_⟩
  · simpa using hs.1
  obtain ⟨hclean, ha, hb⟩ := arithState_clean_iff.1 hc
  rw [arithState_histWritten] at hw
  rw [arithState_hist]
  split_ifs at hw ⊢ with hj
  · exact aluResult_bounded op (readNum_le hs ha) (readNum_le hs hb)
  · exact hs.2 hclean j hw

/-- Settles O52: `State.reset` marks no writable entry. -/
theorem valuesAreBoundedAtReset : Obligations.ValuesAreBoundedAtReset := by
  unfold Obligations.ValuesAreBoundedAtReset
  decide

/-- An instruction keeps the value ranges. -/
theorem exec_keeps_valuesBounded {i : Instr} {s t : State} (hs : s.ValuesBounded) (h : exec i s = .next t) :
    t.ValuesBounded := by
  obtain ⟨lit, k, -, -, -, rfl⟩ | ⟨-, rfl⟩ | ⟨-, -, -, src, f, -, -, -, rfl⟩ | ⟨op, -, -, a, b, k, -, -, -, -, rfl⟩ :=
    exec_next h
  · exact storeState_valuesBounded hs lit k
  · exact lasthState_valuesBounded hs
  · exact hs
  · exact arithState_valuesBounded hs op a b k

/-- Settles O51: the number bank takes only literals, and a clean state's results were computed from literals. -/
theorem valuesStayBounded : Obligations.ValuesStayBounded := fun _ _ =>
  step_preserves (P := State.ValuesBounded) (fun _ _ => id) (fun _ => id) (fun _ _ => id)
    (fun _ => valuesAreBoundedAtReset) fun _ _ _ => exec_keeps_valuesBounded

end Sys2Proof.Machine

/-! PROOFS, family other: what cannot be observed (spec/10_state.md sections 2 and 6; spec/92_eei_decisions.md D6). -/

namespace Sys2Proof.Machine

/-! ### The marks and the record (spec/10_state.md section 6) -/

/-- Nothing an instruction writes to the hardware state depends on the marks or the record. -/
theorem sameHardware_execClosed : ExecClosed SameHardware where
  report := fun r ⟨hnum, hhist, hwn, hwh, hrh, hin, _, hsink⟩ =>
    ⟨hnum, hhist, hwn, hwh, hrh, hin, rfl, congrArg (· ++ [r]) hsink⟩
  wn := fun ⟨_, _, hwn, _⟩ => hwn
  wh := fun ⟨_, _, _, hwh, _⟩ _ => hwh
  store := fun lit i _ ⟨hnum, hhist, hwn, hwh, hrh, hin, _, hsink⟩ => by
    refine ⟨congrArg (·.set i.val (literalValue lit) i.isLt) hnum, hhist, congrArg advanceWn hwn, hwh, hrh, hin, ?_, ?_⟩
    · simp [hwn]
    · simp [hwn, hsink]
  lasth := fun ⟨hnum, hhist, hwn, hwh, hrh, hin, _, hsink⟩ => by
    refine ⟨by simpa, by simpa, by simpa, by simpa, congrArg (fun c => histCursor (prevEntry c)) hrh, by simpa, ?_, ?_⟩
    · simp [hhist, hrh]
    · simp [hhist, hrh, hsink]
  arith := fun {s s'} op {_ _ a b k} _ _ hk ⟨hnum, hhist, hwn, hwh, hrh, hin, _, hsink⟩ => by
    have ha := State.readNum_congr hnum a
    have hb := State.readNum_congr hnum b
    exact ⟨k, hwh ▸ hk, by simpa, by rw [arithState_hist_set, arithState_hist_set, ha, hb, hhist], by simpa,
      by simp [hwh], by simp [hwh], by simpa, by simp [ha, hb], by simp [ha, hb, hsink]⟩

theorem sameHardware_stepClosed : StepClosed SameHardware where
  toExecClosed := sameHardware_execClosed
  input := fun ⟨_, _, _, _, _, hin, _⟩ => hin
  consume := fun _ ⟨hnum, hhist, hwn, hwh, hrh, _, hout, hsink⟩ => ⟨hnum, hhist, hwn, hwh, hrh, rfl, hout, hsink⟩
  quiet := fun ⟨hnum, hhist, hwn, hwh, hrh, hin, _, hsink⟩ => ⟨hnum, hhist, hwn, hwh, hrh, hin, rfl, hsink⟩
  reset := fun ⟨_, _, _, _, _, hin, _, hsink⟩ => ⟨rfl, rfl, rfl, rfl, rfl, hin, rfl, hsink⟩

/-- Settles O54: `SameHardware` is kept by every operation. -/
theorem marksDoNotReachTheHardware : Obligations.MarksDoNotReachTheHardware :=
  fun _ _ h => sameHardware_stepClosed.step_rel h

/-! ### The number-bank entries no source field names (spec/30_encoding.md R75) -/

/-- A source field that names an entry names 0, 1, 10 or 11. -/
theorem val_of_decaddr {f : SrcField} {i : Fin 22} (h : decaddr f = i.val) :
    i = 0 ∨ i.val = 1 ∨ i.val = 10 ∨ i.val = 11 := by
  have hcases := decaddr_of_lt_hundred (f := f) (by omega)
  rw [h] at hcases
  exact hcases.imp_left fun h0 => Fin.ext h0

/-- What a source field names is read alike in both states. -/
theorem SameReadable.readNum_eq {s s' : State} (h : SameReadable s s') {f : SrcField} {i : Fin 22}
    (hf : decaddr f = i.val) : s'.readNum i = s.readNum i := by
  obtain rfl | hi := val_of_decaddr hf
  · rw [s.readNum_zero, s'.readNum_zero]
  · rw [State.readNum, State.readNum, (h.1 i hi).1]

/-- What a source field names is readable in both states or in neither. -/
theorem SameReadable.numReadable_iff {s s' : State} (h : SameReadable s s') {f : SrcField} {i : Fin 22}
    (hf : decaddr f = i.val) : s'.NumReadable i ↔ s.NumReadable i := by
  obtain rfl | hi := val_of_decaddr hf
  · exact iff_of_true (.inl rfl) (.inl rfl)
  · rw [State.NumReadable, (h.1 i hi).2]

/-- The two arithmetic results agree, and so do the records of unwritten reads. -/
theorem sameReadable_arithState {s s' : State} {f1 f2 : SrcField} {a b : Fin 22} (op : AluOp) (k : Fin 10)
    (h1 : decaddr f1 = a.val) (h2 : decaddr f2 = b.val) (h : SameReadable s s') :
    SameReadable (arithState op a b k s) (arithState op a b k s') := by
  have ha := h.readNum_eq h1
  have hb := h.readNum_eq h2
  have hra := h.numReadable_iff h1
  have hrb := h.numReadable_iff h2
  obtain ⟨hent, hhist, hwn, hwh, hrh, hhw, hun, hin, hout, hsink⟩ := h
  refine ⟨by simpa using hent, ?hist, by simpa, by simp [hwh], by simp [hwh], ?marks, ?record, by simpa,
    by simp [ha, hb], by simp [ha, hb, hsink]⟩
  case hist => rw [arithState_hist_set, arithState_hist_set, ha, hb, hhist]
  case marks => rw [arithState_histWritten_set, arithState_histWritten_set, hhw]
  case record => simp only [arithState_unwrittenRead, hra, hrb, hun]

/-- Every instruction reads and writes such states alike: a STORE through the same cursor, arithmetic through the same
fields. -/
theorem sameReadable_execClosed : ExecClosed SameReadable where
  report := fun r ⟨hent, hhist, hwn, hwh, hrh, hhw, hun, hin, _, hsink⟩ =>
    ⟨hent, hhist, hwn, hwh, hrh, hhw, hun, hin, rfl, congrArg (· ++ [r]) hsink⟩
  wn := fun ⟨_, _, hwn, _⟩ => hwn
  wh := fun ⟨_, _, _, hwh, _⟩ _ => hwh
  store := fun {s s'} lit i _ ⟨hent, hhist, hwn, hwh, hrh, hhw, hun, hin, _, hsink⟩ => by
    refine ⟨fun j hj => ?_, hhist, congrArg advanceWn hwn, hwh, hrh, hhw, hun, hin, by simp [hwn], by simp [hwn, hsink]⟩
    obtain ⟨hnum, hmark⟩ := hent j hj
    rw [storeState_num, storeState_num, storeState_numWritten, storeState_numWritten, hnum, hmark]
    exact ⟨rfl, rfl⟩
  lasth := fun ⟨hent, hhist, hwn, hwh, hrh, hhw, hun, hin, _, hsink⟩ =>
    ⟨by simpa using hent, by simpa, by simpa, by simpa, congrArg (fun c => histCursor (prevEntry c)) hrh, by simpa,
      by simp only [lasthState_unwrittenRead, hrh, hhw, hun], by simpa, by simp [hhist, hrh],
      by simp [hhist, hrh, hsink]⟩
  arith := fun {s s'} op {_ _ _ _ k} h1 h2 hk h => by
    have hwh : s'.wh = s.wh := h.2.2.2.1
    exact ⟨k, hwh ▸ hk, sameReadable_arithState op k h1 h2 h⟩

theorem sameReadable_stepClosed : StepClosed SameReadable where
  toExecClosed := sameReadable_execClosed
  input := fun ⟨_, _, _, _, _, _, _, hin, _⟩ => hin
  consume := fun _ ⟨hent, hhist, hwn, hwh, hrh, hhw, hun, _, hout, hsink⟩ =>
    ⟨hent, hhist, hwn, hwh, hrh, hhw, hun, rfl, hout, hsink⟩
  quiet := fun ⟨hent, hhist, hwn, hwh, hrh, hhw, hun, hin, _, hsink⟩ =>
    ⟨hent, hhist, hwn, hwh, hrh, hhw, hun, hin, rfl, hsink⟩
  reset := fun ⟨_, _, _, _, _, _, _, hin, _, hsink⟩ =>
    ⟨fun _ _ => ⟨rfl, rfl⟩, rfl, rfl, rfl, rfl, rfl, rfl, hin, rfl, hsink⟩

/-- Settles O55: `SameReadable` is kept by every operation, since a source field names 0, 1, 10 or 11. -/
theorem unnameableEntriesReachNothing : Obligations.UnnameableEntriesReachNothing :=
  fun _ _ h => sameReadable_stepClosed.step_rel h

/-! ### The start of the history cursors (spec/92_eei_decisions.md D6) -/

theorem rotateEntry_val (r : Nat) (j : Fin 10) : (rotateEntry r j).val = (j.val + r) % 10 := rfl

/-- A rotation takes different entries to different entries. -/
theorem rotateEntry_inj {r : Nat} {j k : Fin 10} : rotateEntry r j = rotateEntry r k ↔ j = k := by
  refine ⟨fun h => Fin.ext ?_, congrArg _⟩
  have hval := congrArg Fin.val h
  rw [rotateEntry_val, rotateEntry_val] at hval
  omega

/-- The entry a LASTH reads is the rotated one. -/
theorem prevEntry_rotate {r : Nat} {c c' : BitVec 4} (h : c'.toNat = (c.toNat + r) % 10) :
    prevEntry c' = rotateEntry r (prevEntry c) := by
  refine Fin.ext ?_
  rw [prevEntry_val, rotateEntry_val, prevEntry_val]
  omega

/-- The write cursors advance in step. -/
theorem advanceWh_rotate {r : Nat} {c c' : BitVec 4} (h : c'.toNat = (c.toNat + r) % 10) :
    (advanceWh c').toNat = ((advanceWh c).toNat + r) % 10 := by
  rw [advanceWh_toNat, advanceWh_toNat]
  omega

/-- Recording one more unwritten read, wherever, gives a record. -/
theorem isSome_orElse_some (o : Option UnwrittenRead) (u : UnwrittenRead) : (o <|> some u).isSome = true := by
  cases o <;> rfl

section
variable {r : Nat} {s s' : State}

theorem RotatedBy.wh_toNat : RotatedBy r s s' → s'.wh.toNat = (s.wh.toNat + r) % 10 :=
  fun ⟨_, _, _, hwh', _⟩ => hwh'

/-- After a LASTH both states stay rotated: each read the entry before its cursor. -/
theorem rotatedBy_lasthState (h : RotatedBy r s s') : RotatedBy r (lasthState s) (lasthState s') := by
  obtain ⟨hent, hwh, hrh, hwh', hrh', hnum, hnw, hwn, hun, hin, -, hsink⟩ := h
  have hprev := prevEntry_rotate hrh'
  obtain ⟨hval, hmark⟩ := hent (prevEntry s.rh)
  simp only [← hprev] at hval hmark
  refine ⟨by simpa using hent, by simpa, ?rh, by simpa, ?rotated, by simpa, by simpa, by simpa, ?record, by simpa,
    by simp only [lasthState_out, hval], by simp only [lasthState_sink, hval, hsink]⟩
  case rh =>
    rw [lasthState_rh]
    omega
  case rotated =>
    rw [lasthState_rh, lasthState_rh]
    omega
  case record =>
    rw [lasthState_unwrittenRead, lasthState_unwrittenRead, hmark]
    split
    · exact hun
    · rw [isSome_orElse_some, isSome_orElse_some]

/-- After an arithmetic instruction both states stay rotated: each wrote the entry at its cursor. -/
theorem rotatedBy_arithState (op : AluOp) (a b : Fin 22) (k : Fin 10) (h : RotatedBy r s s') :
    RotatedBy r (arithState op a b k s) (arithState op a b (rotateEntry r k) s') := by
  obtain ⟨hent, -, -, hwh', -, hnum, hnw, hwn, hun, hin, -, hsink⟩ := h
  have ha := State.readNum_congr hnum a
  have hb := State.readNum_congr hnum b
  have hlegal := advanceWh_legal s.wh
  have hadv := advanceWh_rotate hwh'
  refine ⟨fun j => ?entry, hlegal, hlegal, hadv, hadv, by simpa, by simpa, by simpa, ?record, by simpa,
    by simp only [arithState_out, ha, hb], by simp only [arithState_sink, ha, hb, hsink]⟩
  case entry =>
    obtain ⟨hval, hmark⟩ := hent j
    rw [arithState_hist, arithState_hist, arithState_histWritten, arithState_histWritten, ha, hb, hval, hmark]
    simp only [rotateEntry_inj, and_self]
  case record =>
    rw [arithState_unwrittenRead, arithState_unwrittenRead, hnw]
    split_ifs
    · exact hun
    · rw [isSome_orElse_some, isSome_orElse_some]
    · rw [isSome_orElse_some, isSome_orElse_some]
    · rw [isSome_orElse_some, isSome_orElse_some]

end

/-- Every instruction keeps the rotation it finds. -/
theorem historyRotated_execClosed : ExecClosed HistoryRotated where
  report := fun x ⟨r, hent, hwh, hrh, hwh', hrh', hnum, hnw, hwn, hun, hin, _, hsink⟩ =>
    ⟨r, hent, hwh, hrh, hwh', hrh', hnum, hnw, hwn, hun, hin, rfl, congrArg (· ++ [x]) hsink⟩
  wn := fun ⟨_, _, _, _, _, _, _, _, hwn, _⟩ => hwn
  wh := fun ⟨_, _, hwh, _⟩ hbad => absurd hwh (by omega)
  store := fun lit i _ ⟨r, hent, hwh, hrh, hwh', hrh', hnum, hnw, hwn, hun, hin, _, hsink⟩ =>
    ⟨r, hent, hwh, hrh, hwh', hrh', congrArg (·.set i.val (literalValue lit) i.isLt) hnum,
      congrArg (·.set i.val true i.isLt) hnw, congrArg advanceWn hwn, hun, hin, by simp [hwn], by simp [hwn, hsink]⟩
  lasth := fun ⟨r, h⟩ => ⟨r, rotatedBy_lasthState h⟩
  arith := fun {_ _} op {_ _ a b k} _ _ hk ⟨r, h⟩ =>
    ⟨rotateEntry r k, by rw [rotateEntry_val, ← hk, h.wh_toNat], r, rotatedBy_arithState op a b k h⟩

/-- The state after reset is itself, turned by nothing. -/
theorem rotatedBy_zero_reset : RotatedBy 0 State.reset State.reset := by
  unfold RotatedBy
  decide

theorem historyRotated_stepClosed : StepClosed HistoryRotated where
  toExecClosed := historyRotated_execClosed
  input := fun ⟨_, _, _, _, _, _, _, _, _, _, hin, _⟩ => hin
  consume := fun _ ⟨r, hent, hwh, hrh, hwh', hrh', hnum, hnw, hwn, hun, _, hout, hsink⟩ =>
    ⟨r, hent, hwh, hrh, hwh', hrh', hnum, hnw, hwn, hun, rfl, hout, hsink⟩
  quiet := fun ⟨r, hent, hwh, hrh, hwh', hrh', hnum, hnw, hwn, hun, hin, _, hsink⟩ =>
    ⟨r, hent, hwh, hrh, hwh', hrh', hnum, hnw, hwn, hun, hin, rfl, hsink⟩
  reset := fun ⟨_, _, _, _, _, _, _, _, _, _, hin, _, hsink⟩ => by
    obtain ⟨hent, hwh, hrh, hwh', hrh', hnum, hnw, hwn, hun, -⟩ := rotatedBy_zero_reset
    exact ⟨0, hent, hwh, hrh, hwh', hrh', hnum, hnw, hwn, hun, hin, rfl, hsink⟩

/-- Settles O56: every operation keeps the rotation, and a reset turns both banks to the same place. -/
theorem historyStartIsUnobservable : Obligations.HistoryStartIsUnobservable :=
  fun _ _ h => historyRotated_stepClosed.step_rel h

end Sys2Proof.Machine

/-! PROOFS, family other: the encoding, the opcode table, the framer and the assembler (spec/30_encoding.md sections 1,
2, 3 and 5; spec/00_scope.md section 4). -/

namespace Sys2Proof

/-! ### Decode and encode -/

/-- Settles O1: each word's opcode and function fields are the literal bits of spec/30_encoding.md R76 and R77. -/
theorem sampleWordsDecode : Obligations.SampleWordsDecode := by
  unfold Obligations.SampleWordsDecode
  decide

/-- Settles O2: an encoding is a packing, on which the decoder's answer is known opcode by opcode. -/
theorem decodeOfEncode : Obligations.DecodeOfEncode := by
  intro i
  cases i with
  | store lit => exact decode_packFields_store 0 0 lit 0
  | lasth => exact decode_packFields_lasth 0 0 0 0
  | add f1 f2 => exact decode_packFields_arith f1 f2 0 fnAdd
  | sub f1 f2 => exact decode_packFields_arith f1 f2 0 fnSub
  | mul f1 f2 => exact decode_packFields_arith f1 f2 0 fnMul
  | div f1 f2 => exact decode_packFields_arith f1 f2 0 fnDiv

/-- Masking a packing masks each field. -/
theorem packFields_and (opc opc' : BitVec 6) (f1 f1' f2 f2' : SrcField) (lit lit' : Literal) (fn fn' : BitVec 6) :
    packFields opc f1 f2 lit fn &&& packFields opc' f1' f2' lit' fn' =
      packFields (opc &&& opc') (f1 &&& f1') (f2 &&& f2') (lit &&& lit') (fn &&& fn') := by
  refine BitVec.eq_of_getLsbD_eq fun n _ => ?_
  simp only [BitVec.getLsbD_and, packFields_getLsbD]
  split_ifs <;> rfl

section
variable (w : BitVec 32)

/-- The mask of STORE keeps the opcode and the literal. -/
theorem and_storeMask : w &&& 0xFC00FFC0#32 = packFields (opcOf w) 0 0 (litOf w) 0 := by
  have hmask : 0xFC00FFC0#32 = packFields (BitVec.allOnes 6) 0 0 (BitVec.allOnes 10) 0 := by decide
  conv_lhs => rw [← packFields_fields w, hmask, packFields_and]
  simp only [BitVec.and_allOnes, BitVec.ofNat_eq_ofNat, BitVec.and_zero]

/-- The mask of LASTH keeps the opcode. -/
theorem and_lasthMask : w &&& 0xFC000000#32 = packFields (opcOf w) 0 0 0 0 := by
  have hmask : 0xFC000000#32 = packFields (BitVec.allOnes 6) 0 0 0 0 := by decide
  conv_lhs => rw [← packFields_fields w, hmask, packFields_and]
  simp only [BitVec.and_allOnes, BitVec.ofNat_eq_ofNat, BitVec.and_zero]

/-- The mask of the arithmetic instructions keeps all but the literal. -/
theorem and_arithMask : w &&& 0xFFFF003F#32 = packFields (opcOf w) (f1Of w) (f2Of w) 0 (fnOf w) := by
  have hmask : 0xFFFF003F#32 =
      packFields (BitVec.allOnes 6) (BitVec.allOnes 5) (BitVec.allOnes 5) 0 (BitVec.allOnes 6) := by decide
  conv_lhs => rw [← packFields_fields w, hmask, packFields_and]
  simp only [BitVec.and_allOnes, BitVec.ofNat_eq_ofNat, BitVec.and_zero]

/-- The mask of the arithmetic rows keeps the opcode and the function code. -/
theorem and_fnMask : w &&& 0xFC00003F#32 = packFields (opcOf w) 0 0 0 (fnOf w) := by
  have hmask : 0xFC00003F#32 = packFields (BitVec.allOnes 6) 0 0 0 (BitVec.allOnes 6) := by decide
  conv_lhs => rw [← packFields_fields w, hmask, packFields_and]
  simp only [BitVec.and_allOnes, BitVec.ofNat_eq_ofNat, BitVec.and_zero]

end

/-- Settles O3: the mask of each instruction keeps exactly the fields its encoding packs. -/
theorem decodedWordReencodes : Obligations.DecodedWordReencodes := by
  intro w i h
  obtain ⟨ho, rfl⟩ | ⟨ho, rfl⟩ | ⟨ho, ⟨hf, rfl⟩ | ⟨hf, rfl⟩ | ⟨hf, rfl⟩ | ⟨hf, rfl⟩⟩ := decode_eq_instr_cases h
  · rw [Instr.usedMask, and_storeMask, ho, encode]
  · rw [Instr.usedMask, and_lasthMask, ho, encode]
  all_goals rw [Instr.usedMask, and_arithMask, ho, hf, encode]

/-! ### The opcode table (spec/30_encoding.md R79) -/

section
variable {w : BitVec 32}

/-- A word under the opcode mask is the packing of an opcode alone exactly when it has that opcode. -/
theorem matches_opcode {bits : BitVec 32} {opc : BitVec 6} (hbits : bits = packFields opc 0 0 0 0) :
    (w &&& 0xFC000000#32 == bits) = decide (opcOf w = opc) := by
  rw [and_lasthMask, hbits, beq_eq_decide, decide_eq_decide]
  exact ⟨fun h => by simpa using congrArg opcOf h, fun h => by rw [h]⟩

/-- A word under the arithmetic rows' mask is the packing of a function code exactly when it has that function code
under the arithmetic opcode. -/
theorem matches_function {bits : BitVec 32} {fn : BitVec 6} (hbits : bits = packFields opcArith 0 0 0 fn) :
    (w &&& 0xFC00003F#32 == bits) = decide (opcOf w = opcArith ∧ fnOf w = fn) := by
  rw [and_fnMask, hbits, beq_eq_decide, decide_eq_decide]
  exact ⟨fun h => ⟨by simpa using congrArg opcOf h, by simpa using congrArg fnOf h⟩, fun ⟨ho, hf⟩ => by rw [ho, hf]⟩

end

/-- Which rows of the table match a word is decided by its opcode and its function code. -/
theorem filter_opcodeTable (w : BitVec 32) :
    ((opcodeTable.filter fun r => r.matchesWord w).map OpcodeRow.mnemonic) =
      ([("STORE", decide (opcOf w = opcStore)), ("LASTH", decide (opcOf w = opcLasth)),
        ("ADD", decide (opcOf w = opcArith ∧ fnOf w = fnAdd)), ("SUB", decide (opcOf w = opcArith ∧ fnOf w = fnSub)),
        ("MUL", decide (opcOf w = opcArith ∧ fnOf w = fnMul)),
        ("DIV", decide (opcOf w = opcArith ∧ fnOf w = fnDiv))].filter Prod.snd).map Prod.fst := by
  have hstore := matches_opcode (w := w) (bits := 0x04000000#32) (opc := opcStore) (by decide)
  have hlasth := matches_opcode (w := w) (bits := 0x84000000#32) (opc := opcLasth) (by decide)
  have hadd := matches_function (w := w) (bits := 0x00000020#32) (fn := fnAdd) (by decide)
  have hsub := matches_function (w := w) (bits := 0x00000022#32) (fn := fnSub) (by decide)
  have hmul := matches_function (w := w) (bits := 0x00000018#32) (fn := fnMul) (by decide)
  have hdiv := matches_function (w := w) (bits := 0x0000001A#32) (fn := fnDiv) (by decide)
  simp only [opcodeTable, List.filter_cons, OpcodeRow.matchesWord, hstore, hlasth, hadd, hsub, hmul, hdiv,
    apply_ite (List.map _), List.map_cons, List.filter_nil, List.map_nil]

/-- Settles O4: the decoder's branches are the conditions of the six rows. -/
theorem wordsMatchAtMostOneRow : Obligations.WordsMatchAtMostOneRow := by
  intro w
  have hrows := filter_opcodeTable w
  by_cases hs : opcOf w = opcStore
  · rw [decode_store hs]
    exact hrows.trans (by simp [hs, opcStore, opcLasth, opcArith, Instr.mnemonic])
  by_cases hl : opcOf w = opcLasth
  · rw [decode_lasth hl]
    exact hrows.trans (by simp [hl, opcStore, opcLasth, opcArith, Instr.mnemonic])
  by_cases ha : opcOf w = opcArith
  · have hopc : w.extractLsb' 26 6 = 0#6 := ha
    rw [decode_arith ha]
    split_ifs with hadd hsub hmul hdiv
    · exact hrows.trans (by rw [ha, hadd]; rfl)
    · exact hrows.trans (by rw [ha, hsub]; rfl)
    · exact hrows.trans (by rw [ha, hmul]; rfl)
    · exact hrows.trans (by rw [ha, hdiv]; rfl)
    · exact ⟨List.map_eq_nil_iff.1 (hrows.trans (by simp [hs, hl, hadd, hsub, hmul, hdiv])), hopc⟩
  · have hopc : w.extractLsb' 26 6 ≠ 0#6 := ha
    rw [decode_badOpcode hs hl ha]
    exact ⟨List.map_eq_nil_iff.1 (hrows.trans (by simp [hs, hl, ha])), hopc⟩

/-! ### The five fields (spec/30_encoding.md R71) -/

/-- Settles O5: a field is a slice of the word, and packing and slicing are inverse to each other. -/
theorem fieldsPartitionTheWord : Obligations.FieldsPartitionTheWord := by
  refine ⟨fun w => ⟨?opc, ?f1, ?f2, ?lit, ?fn, packFields_fields w⟩, fun opc f1 f2 lit fn =>
    ⟨opcOf_packFields .., f1Of_packFields .., f2Of_packFields .., litOf_packFields .., fnOf_packFields ..⟩⟩
  case opc => intro n hn; simp [opcOf, hn]
  case f1 => intro n hn; simp [f1Of, hn]
  case f2 => intro n hn; simp [f2Of, hn]
  case lit => intro n hn; simp [litOf, hn]
  case fn => intro n hn; simp [fnOf, hn]

/-! ### The framer (spec/00_scope.md section 4) -/

/-- One more character shifts the word up and becomes its lowest bit. -/
theorem wordOfChars_concat (bits : List Bool) (b : Bool) :
    wordOfChars (bits ++ [b]) = (wordOfChars bits <<< 1) ||| BitVec.setWidth 32 (BitVec.ofBool b) := by
  simp [wordOfChars]

/-- Bit `n` of the word is the character `n` places before the last. -/
theorem wordOfChars_getLsbD (bits : List Bool) {n : Nat} (hn : n < 32) :
    (wordOfChars bits).getLsbD n = (bits.reverse[n]?).getD false := by
  induction bits using List.reverseRecOn generalizing n with
  | nil => simp [wordOfChars]
  | append_singleton bits b ih =>
    rw [wordOfChars_concat, List.reverse_concat]
    cases n with
    | zero => simp
    | succ n =>
      have hn' : n < 32 := by omega
      simpa [hn, hn'] using ih hn'

end Sys2Proof

namespace Sys2Proof.Machine

/-- Settles O7: character `c` of 32 is the character `31 - c` places before the last. -/
theorem charactersMapToBits : Obligations.CharactersMapToBits := by
  intro bits c hc hlen
  refine ⟨?bit, ⟨rfl, rfl⟩, by simp [frame, hlen]⟩
  case bit =>
    have hlast : bits.length - 1 - (31 - c) = c := by omega
    rw [frame, wordOfChars_getLsbD bits (by omega), List.getElem?_reverse (by omega), hlast,
      List.getElem?_eq_getElem hc, Option.getD_some]

/-! ### Source fields and the assembler (spec/30_encoding.md R75, R92) -/

/-- Settles O10: the hundreds and above are the top three bits; below 100 a field names 0, 1, 10 or 11. -/
theorem inRangeSourceFields : Obligations.InRangeSourceFields := by
  intro f
  refine ⟨?top, fun h => decaddr_of_lt_hundred (by omega), fun h => ⟨?low, decaddr_le f⟩⟩
  case top => revert f; decide
  case low =>
    by_contra hlt
    have hcases := decaddr_of_lt_hundred (f := f) (by omega)
    omega

/-- The disassembler prints the decimal parse of an in-range field. -/
theorem disassembleField_eq (f : SrcField) :
    disassembleField f = if decaddr f ≤ 21 then .reg (decaddr f) else .raw f := by
  revert f
  decide

/-- The assembler accepts an operand exactly when it is well formed. -/
theorem field_isSome (a : AsmOperand) : a.field.isSome = a.wellFormed := by
  cases a with
  | raw f => rfl
  | reg n =>
    unfold AsmOperand.field AsmOperand.wellFormed
    split <;> simp_all

theorem reg_wellFormed_iff {n : Nat} : (AsmOperand.reg n).wellFormed = true ↔ n = 0 ∨ n = 1 ∨ n = 10 ∨ n = 11 := by
  simp [AsmOperand.wellFormed, or_assoc]

/-- `rN` stands for the in-range field whose decimal parse is N. -/
theorem field_reg_eq_some_iff {n : Nat} {f : SrcField} :
    (AsmOperand.reg n).field = some f ↔ decaddr f = n ∧ n ≤ 21 := by
  constructor
  · intro h
    have hwf : (AsmOperand.reg n).wellFormed = true := by rw [← field_isSome, h]; rfl
    obtain rfl | rfl | rfl | rfl := reg_wellFormed_iff.1 hwf <;> cases h <;> decide
  · rintro ⟨rfl, h⟩
    revert f
    decide

/-- What the disassembler prints for a field stands for that field. -/
theorem field_disassembleField (f : SrcField) : (disassembleField f).field = some f := by
  revert f
  decide

/-- An arithmetic line assembles to its operation of its operands' fields, in order. -/
theorem assemblePair_eq {mk : SrcField → SrcField → Instr} {a b : AsmOperand} {f1 f2 : SrcField}
    (ha : a.field = some f1) (hb : b.field = some f2) : assemblePair mk a b = some (mk f1 f2) := by
  rw [assemblePair, ha, hb]

/-- The assembler accepts an arithmetic line exactly when it accepts both operands. -/
theorem assemblePair_isSome (mk : SrcField → SrcField → Instr) (a b : AsmOperand) :
    (assemblePair mk a b).isSome = (a.wellFormed && b.wellFormed) := by
  rw [← field_isSome, ← field_isSome, assemblePair]
  cases a.field with
  | none => rfl
  | some f1 => cases b.field <;> rfl

/-- The assembler accepts exactly the well-formed lines. -/
theorem assemble_isSome (a : Asm) : (assemble a).isSome = a.wellFormed := by
  cases a with
  | store l => by_cases hl : l ≤ 1023 <;> simp [assemble, Asm.wellFormed, hl]
  | lasth => rfl
  | add a b | sub a b | mul a b | div a b => exact assemblePair_isSome _ a b

/-- What the disassembler prints assembles to the instruction. -/
theorem assemble_disassemble (i : Instr) : assemble (disassemble i) = some i := by
  cases i with
  | store lit =>
    have hlit : lit.toNat ≤ 1023 := by have := lit.isLt; omega
    rw [disassemble, assemble, if_pos hlit, BitVec.ofNat_toNat, BitVec.setWidth_eq]
  | lasth => rfl
  | add f1 f2 | sub f1 f2 | mul f1 f2 | div f1 f2 =>
    exact assemblePair_eq (field_disassembleField f1) (field_disassembleField f2)

/-- Settles O8: the operands' fields, then the lines made of them. -/
theorem assemblerRoundTrip : Obligations.AssemblerRoundTrip := by
  refine ⟨assemble_disassemble, assemble_isSome, fun n => reg_wellFormed_iff, fun n f => field_reg_eq_some_iff,
    fun f => rfl, fun l hl => ⟨BitVec.ofNat 10 l, if_pos hl, ?literal⟩, rfl, fun a b f1 f2 ha hb =>
      ⟨assemblePair_eq ha hb, assemblePair_eq ha hb, assemblePair_eq ha hb, assemblePair_eq ha hb⟩, disassembleField_eq⟩
  case literal =>
    rw [BitVec.toNat_ofNat]
    omega

end Sys2Proof.Machine

/-! PROOFS, family other: the arithmetic unit and the four arithmetic instructions (spec/41_arithmetic.md sections 1 and
2; spec/60_exceptions.md section 2). -/

namespace Sys2Proof.Machine

/-! ### The four operations on words (spec/41_arithmetic.md R121 to R126) -/

theorem aluResult_sub (x y : Word) : aluResult .sub x y = x - y := by
  refine BitVec.eq_of_toInt_eq ?_
  rw [aluResult, AluOp.exact, BitVec.toInt_ofInt, BitVec.toInt_sub]

theorem aluResult_mul (x y : Word) : aluResult .mul x y = x * y := by
  simp [aluResult, AluOp.exact, BitVec.ofInt_mul]

/-- The quotient of the words' values, a zero divisor giving 0 as truncating division does. -/
theorem aluResult_div (x y : Word) : aluResult .div x y = BitVec.ofInt 32 (x.toInt.tdiv y.toInt) := by
  rw [aluResult, AluOp.exact]
  split_ifs with h
  · rw [h, Int.tdiv_zero]
  · rfl

/-- The quotient is the signed quotient of words. -/
theorem aluResult_div_eq_sdiv (x y : Word) : aluResult .div x y = x.sdiv y := by
  refine BitVec.eq_of_toInt_eq ?_
  rw [aluResult_div, BitVec.toInt_ofInt, BitVec.toInt_sdiv]

/-- Settles O11: each exact result, reduced modulo 2^32, is the operation on words. -/
theorem aluMatchesWordArithmetic : Obligations.AluMatchesWordArithmetic :=
  fun x y => ⟨aluResult_add x y, aluResult_sub x y, aluResult_mul x y, aluResult_div_eq_sdiv x y⟩

/-- Truncating division gives a negative quotient exactly where the signs differ and the quotient is not 0. -/
theorem tdiv_neg_iff (a b : Int) :
    a.tdiv b < 0 ↔ ((a < 0 ∧ 0 ≤ b) ∨ (0 ≤ a ∧ b < 0)) ∧ a.tdiv b ≠ 0 := by
  obtain ha | ha := lt_or_ge a 0 <;> obtain hb | hb := lt_or_ge b 0
  · have h := Int.tdiv_nonneg_of_nonpos_of_nonpos ha.le hb.le
    omega
  · have h := Int.tdiv_nonneg (neg_nonneg.2 ha.le) hb
    rw [Int.neg_tdiv] at h
    omega
  · have h := Int.tdiv_nonpos_of_nonneg_of_nonpos ha hb.le
    omega
  · have h := Int.tdiv_nonneg ha hb
    omega

/-- Away from -2^31 / -1 the quotient of two words fits a word. -/
theorem aluResult_div_toInt {x y : Word} (h : ¬(x = 0x80000000#32 ∧ y = 0xFFFFFFFF#32)) :
    (aluResult .div x y).toInt = x.toInt.tdiv y.toInt := by
  rw [aluResult_div_eq_sdiv, BitVec.toInt_sdiv_of_ne_or_ne x y (not_and_or.1 h)]

/-- Settles O12: the corner cases by computation, the others by truncating division of the words' values. -/
theorem divTruncatesTowardZero : Obligations.DivTruncatesTowardZero := by
  intro x y
  refine ⟨?zero, ?overflow, fun hy hxy => ?quotient⟩
  case zero =>
    rintro rfl
    exact ⟨by rw [aluResult_div_eq_sdiv, BitVec.sdiv_zero], rfl⟩
  case overflow =>
    rintro rfl rfl
    decide
  case quotient =>
    have hq := aluResult_div_toInt hxy
    have hzero : aluResult .div x y ≠ 0#32 ↔ x.toInt.tdiv y.toInt ≠ 0 := by
      rw [← hq, ← BitVec.toInt_zero, Ne, Ne, BitVec.toInt_inj]
    refine ⟨?_, ?_, beq_false_of_ne hy⟩
    · rw [hq, Int.natAbs_tdiv]
      rfl
    · rw [hzero, hq]
      exact tdiv_neg_iff _ _

/-! ### What an arithmetic instruction records (spec/41_arithmetic.md R120) -/

section
variable {ins : Instr} {op : AluOp} {f1 f2 : SrcField} {s : State} {i j : Fin 22}

/-- With both sources in range and a legal cursor the result is recorded and reported. -/
theorem exec_records (hp : arithParts ins = some (op, f1, f2)) (h1 : decaddr f1 = i.val) (h2 : decaddr f2 = j.val)
    (hwh : s.wh.toNat ≤ 9) :
    ∃ k, exec ins s = .next (arithState op i j k s) ∧
      RecordsResult s (arithState op i j k s) (aluResult op (s.readNum i) (s.readNum j)) (divzOf op (s.readNum j)) := by
  obtain ⟨k, -, hk⟩ := histSlot_legal hwh
  refine ⟨k, (exec_of_arithParts hp s).trans (arith_eq h1 h2 hk.symm), fun l hl => ?_, advanceWh_toNat s.wh, rfl, rfl,
    arithState_sink op i j k s⟩
  obtain rfl : l = k := Fin.ext (hl.trans hk.symm)
  rw [arithState_hist, arithState_histWritten, if_pos rfl, if_pos rfl]
  exact ⟨rfl, rfl⟩

/-- The same, with the result and the indication named, and the record of unwritten reads where both entries are
readable. -/
theorem exec_records_value {v : Word} {z : Bool} (hp : arithParts ins = some (op, f1, f2)) (h1 : decaddr f1 = i.val)
    (h2 : decaddr f2 = j.val) (hwh : s.wh.toNat ≤ 9) (hv : aluResult op (s.readNum i) (s.readNum j) = v)
    (hz : divzOf op (s.readNum j) = z) :
    ∃ t, exec ins s = .next t ∧ RecordsResult s t v z ∧
      (s.NumReadable i → s.NumReadable j → t.unwrittenRead = s.unwrittenRead) := by
  obtain ⟨k, hexec, hrec⟩ := exec_records hp h1 h2 hwh
  rw [hv, hz] at hrec
  exact ⟨_, hexec, hrec, arithState_unwrittenRead_of_readable⟩

end

/-- Settles O24: the general record of an arithmetic result, with the exact sum as the sum of words. -/
theorem addRecordsTheSum : Obligations.AddRecordsTheSum := fun _ _ _ _ _ h1 h2 hwh =>
  exec_records_value rfl h1 h2 hwh (aluResult_add _ _) rfl

/-- Settles O25: the general record of an arithmetic result, with the exact difference as the difference of words. -/
theorem subRecordsTheDifference : Obligations.SubRecordsTheDifference := fun _ _ _ _ _ h1 h2 hwh =>
  exec_records_value rfl h1 h2 hwh (aluResult_sub _ _) rfl

/-- Settles O26: the general record of an arithmetic result, with the exact product as the product of words. -/
theorem mulRecordsTheProduct : Obligations.MulRecordsTheProduct := fun _ _ _ _ _ h1 h2 hwh =>
  exec_records_value rfl h1 h2 hwh (aluResult_mul _ _) rfl

/-- Settles O27: the general record of an arithmetic result, the divisor not being 0. -/
theorem divRecordsTheQuotient : Obligations.DivRecordsTheQuotient := fun _ _ _ _ _ h1 h2 hwh hy =>
  exec_records_value rfl h1 h2 hwh (aluResult_div _ _) (beq_false_of_ne hy)

/-- DIV of readable entries, the divisor's being 0, records 0 with `divz`. -/
theorem exec_div_zero {f1 f2 : SrcField} {s : State} {i j : Fin 22} (h1 : decaddr f1 = i.val) (h2 : decaddr f2 = j.val)
    (hwh : s.wh.toNat ≤ 9) (hi : s.NumReadable i) (hj : s.NumReadable j) (hy : s.readNum j = 0#32) :
    ∃ t, exec (.div f1 f2) s = .next t ∧ RecordsResult s t 0#32 true ∧ t.unwrittenRead = s.unwrittenRead := by
  have hquot : aluResult .div (s.readNum i) (s.readNum j) = 0#32 := by
    rw [hy, aluResult_div_eq_sdiv, BitVec.sdiv_zero]
  have hdivz : divzOf .div (s.readNum j) = true := by rw [hy]; rfl
  obtain ⟨t, hexec, hrec, hun⟩ := exec_records_value (ins := .div f1 f2) rfl h1 h2 hwh hquot hdivz
  exact ⟨t, hexec, hrec, hun hi hj⟩

/-- Settles O28: field 00000 names entry 0, which is readable and reads 0. -/
theorem divideByZeroRecordsZero : Obligations.DivideByZeroRecordsZero :=
  ⟨fun _ _ _ _ _ => exec_div_zero, fun _ s _ h1 hwh hi =>
    exec_div_zero (j := 0) h1 rfl hwh hi (.inl rfl) s.readNum_zero⟩

/-- From a clean state the record is of the first unwritten source, `sourceOne` before `sourceTwo`. -/
theorem arithState_unwrittenRead_of_clean {op : AluOp} {a b : Fin 22} {k : Fin 10} {s : State} (hclean : s.Clean) :
    (arithState op a b k s).unwrittenRead =
      if ¬s.NumReadable a then some ⟨.num, a.val⟩ else if ¬s.NumReadable b then some ⟨.num, b.val⟩ else none := by
  rw [arithState_unwrittenRead, show s.unwrittenRead = none from hclean]
  by_cases ha : s.NumReadable a <;> by_cases hb : s.NumReadable b <;>
    simp only [ha, hb, if_true, if_false] <;> rfl

/-- Settles O31: what is recorded is what `noteNumRead` records for the first source, then for the second. -/
theorem unwrittenOperandIsRecorded : Obligations.UnwrittenOperandIsRecorded := by
  intro f1 f2 s a b ins op hop h1 h2 hwh hclean
  have hp : arithParts ins = some (op, f1, f2) := by
    obtain ⟨rfl, rfl⟩ | ⟨rfl, rfl⟩ | ⟨rfl, rfl⟩ | ⟨rfl, rfl⟩ := hop <;> rfl
  obtain ⟨k, hexec, hrec⟩ := exec_records hp h1 h2 hwh
  exact ⟨_, hexec, hrec, arithState_unwrittenRead_of_clean hclean⟩

/-! ### What arithmetic leaves unchanged (spec/30_encoding.md section 4) -/

/-- An instruction that is arithmetic has an operation and two source fields. -/
theorem exists_arithParts {ins : Instr} (h : isArith ins = true) : ∃ op f1 f2, arithParts ins = some (op, f1, f2) := by
  cases ins with
  | store | lasth => cases h
  | add f1 f2 | sub f1 f2 | mul f1 f2 | div f1 f2 => exact ⟨_, f1, f2, rfl⟩

/-- Settles O29: a report changes no block, and a recorded result writes the entry its cursor names. -/
theorem arithmeticLeavesTheRestUnchanged : Obligations.ArithmeticLeavesTheRestUnchanged := by
  intro ins s t harith h
  obtain ⟨op, f1, f2, hp⟩ := exists_arithParts harith
  have hw := writesHistory_of_arithParts hp
  rw [exec_of_arithParts hp] at h
  obtain ⟨-, rfl⟩ | ⟨-, -, rfl⟩ | ⟨a, b, k, h1, h2, hk, rfl⟩ := arith_next h
  · simp [SameBlock]
  · simp [SameBlock]
  · have hin : decaddr f1 ≤ 21 ∧ decaddr f2 ≤ 21 := by omega
    refine ⟨by simp, by simp, by simp, by simp, fun l hl => ?_, fun hno => ?_⟩
    · have hlk : l ≠ k := fun heq => hl (heq ▸ hk.symm)
      rw [arithState_hist, arithState_histWritten, if_neg hlk, if_neg hlk]
      exact ⟨rfl, rfl⟩
    · rw [hw, decide_eq_true hin] at hno
      cases hno

/-- A report keeps the block and shows its status. -/
theorem report_effect (s : State) (r : Status) : SameBlock s (s.report r) ∧ Reports s (s.report r) r := by
  simp [SameBlock, Reports]

/-- Each of the four instructions with two given source fields has an operation. -/
theorem exists_op_of_cases {ins : Instr} {f1 f2 : SrcField}
    (h : ins = .add f1 f2 ∨ ins = .sub f1 f2 ∨ ins = .mul f1 f2 ∨ ins = .div f1 f2) :
    ∃ op, arithParts ins = some (op, f1, f2) := by
  obtain rfl | rfl | rfl | rfl := h <;> exact ⟨_, rfl⟩

/-- Settles O30: the range checks come before either read, `sourceOne` first. -/
theorem outOfRangeSourceIsReported : Obligations.OutOfRangeSourceIsReported := by
  intro f1 f2 s ins hins
  obtain ⟨op, hp⟩ := exists_op_of_cases hins
  refine ⟨fun h1 => ?one, fun h1 h2 => ?two⟩
  case one => exact ⟨_, (exec_of_arithParts hp s).trans (arith_source_one h1), report_effect s _⟩
  case two => exact ⟨_, (exec_of_arithParts hp s).trans (arith_source_two h1 h2), report_effect s _⟩

/-- Settles O33: no slot for the STORE, no entry for the result. -/
theorem illegalCursorStops : Obligations.IllegalCursorStops := by
  refine ⟨fun lit s hwn => execStore_fault (by omega), fun ins s hw hwh => ?_⟩
  obtain ⟨op, f1, f2, hp⟩ := exists_arithParts (isArith_of_writesHistory hw)
  obtain ⟨h1, h2⟩ := of_decide_eq_true ((writesHistory_of_arithParts hp).symm.trans hw)
  rw [exec_of_arithParts hp, arith_fault h1 h2 hwh]

end Sys2Proof.Machine

/-! PROOFS, family other: STORE and LASTH, one at a time and in sequences (spec/40_register_ops.md sections 2, 3 and 4;
spec/70_reset_and_hazards.md section 2). -/

namespace Sys2Proof.Machine

/-! ### One STORE, one LASTH -/

/-- Settles O14: STORE writes the entry its cursor names, advances that cursor and reports. -/
theorem storeLeavesTheRestUnchanged : Obligations.StoreLeavesTheRestUnchanged := by
  intro lit s t h
  obtain ⟨i, hi, -, rfl⟩ := execStore_next h
  refine ⟨fun j hj => ?_, rfl, rfl, rfl, rfl, rfl, rfl⟩
  have hji : j ≠ i := fun heq => hj (heq ▸ hi.symm)
  have hnum : (storeState lit i s).num[j] = s.num[j] := (storeState_num lit i s j).trans (if_neg hji)
  refine ⟨hnum, ?_, (storeState_numWritten lit i s j).trans (if_neg hji)⟩
  rw [State.readNum, State.readNum, hnum]

/-- LASTH moves to the entry before its cursor and reports it. -/
theorem exec_lasth (s : State) :
    exec .lasth s = .next (lasthState s) ∧ (lasthState s).rh.toNat = (prevEntry s.rh).val ∧
      Reports s (lasthState s) (.lastValue s.hist[prevEntry s.rh]) :=
  ⟨rfl, lasthState_rh s, rfl, lasthState_sink s⟩

/-- Settles O17: the entry is written, so nothing is recorded. -/
theorem lasthReportsTheEntryBefore : Obligations.LasthReportsTheEntryBefore := by
  intro s j hj hw
  obtain rfl : j = prevEntry s.rh := Fin.ext hj
  obtain ⟨hexec, hrh, hreports⟩ := exec_lasth s
  exact ⟨_, hexec, hrh, hreports, (lasthState_unwrittenRead s).trans (if_pos hw)⟩

/-- Settles O18: the entry is unwritten, so it is recorded unless an earlier one is. -/
theorem lasthOfAnUnwrittenEntryIsRecorded : Obligations.LasthOfAnUnwrittenEntryIsRecorded := by
  intro s j hj hw
  obtain rfl : j = prevEntry s.rh := Fin.ext hj
  obtain ⟨hexec, hrh, hreports⟩ := exec_lasth s
  refine ⟨_, hexec, hrh, hreports, ?_⟩
  rw [lasthState_unwrittenRead, if_neg (by simp [hw])]
  unfold State.Clean
  cases s.unwrittenRead <;> rfl

/-- Settles O19: LASTH changes `rh`, the outputs and the record alone. -/
theorem lasthLeavesTheRestUnchanged : Obligations.LasthLeavesTheRestUnchanged := by
  intro s t h
  cases h
  refine ⟨lasthState_num s, lasthState_numWritten s, lasthState_wn s, lasthState_hist s, lasthState_histWritten s,
    lasthState_wh s, lasthState_input s, fun j hj hw => ?_⟩
  obtain rfl : j = prevEntry s.rh := Fin.ext hj
  exact (lasthState_unwrittenRead s).trans (if_pos hw)

/-! ### STOREs in sequence (spec/40_register_ops.md section 4) -/

/-- A sequence and one instruction more. -/
theorem execAll_concat {is : List Instr} {i : Instr} {s t u : State} (h : execAll is s = .next t)
    (hi : exec i t = .next u) : execAll (is ++ [i]) s = .next u := by
  induction is generalizing s with
  | nil =>
    cases h
    rw [List.nil_append, execAll_cons hi]
    rfl
  | cons j is ih =>
    obtain ⟨s', hj, hrest⟩ := execAll_cons_next h
    rw [List.cons_append, execAll_cons hj, ih hrest]

/-- What the state `t` holds after STOREs of the given literals from the state `s` with `wn` at slot 1. -/
structure StoredFrom (s : State) (lits : List Literal) (t : State) : Prop where
  wn : t.wn.toNat = lits.length % 21 + 1
  sink : t.sink = s.sink ++ lits.mapIdx (fun k l => .stored (l.setWidth 32) (BitVec.ofNat 5 (k % 21 + 1)))
  value : ∀ (k : Nat) (i : Fin 22) (h : k < lits.length), lits.length ≤ k + 21 → i.val = k % 21 + 1 →
    t.readNum i = lits[k].setWidth 32
  marks : ∀ i : Fin 22, i ≠ 0 → (t.numWritten[i] = true ↔ s.numWritten[i] = true ∨ i.val ≤ lits.length)

theorem storedFrom_nil {s : State} (h : s.wn = 1#5) : StoredFrom s [] s where
  wn := by simp [h]
  sink := by simp
  value := fun _ _ h => absurd h (Nat.not_lt_zero _)
  marks := fun i h0 => by
    have hi : i.val ≠ 0 := fun hv => h0 (Fin.ext hv)
    simp [hi]

/-- Reads of the other entries are as before the STORE. -/
theorem storeState_readNum_of_ne {lit : Literal} {i j : Fin 22} (h : j ≠ i) (s : State) :
    (storeState lit i s).readNum j = s.readNum j := by
  rw [State.readNum, State.readNum, storeState_num, if_neg h]

/-- One STORE more: it goes to the slot after the last one's, round the 21 slots. -/
theorem StoredFrom.store {s t : State} {lits : List Literal} (h : StoredFrom s lits t) (lit : Literal) :
    ∃ u, exec (.store lit) t = .next u ∧ StoredFrom s (lits ++ [lit]) u := by
  have hwn := h.wn
  obtain ⟨i, -, hi, h0⟩ := numSlot_legal (c := t.wn) (by omega)
  have hslot : t.wn = BitVec.ofNat 5 (lits.length % 21 + 1) := by
    refine BitVec.eq_of_toNat_eq ?_
    rw [BitVec.toNat_ofNat]
    omega
  refine ⟨storeState lit i t, execStore_eq hi.symm h0, ?wn, ?sink, fun k j hk hlen hj => ?value, fun j hj0 => ?marks⟩
  case wn =>
    rw [storeState_wn, advanceWn_toNat, List.length_append, List.length_singleton]
    split_ifs <;> omega
  case sink =>
    rw [storeState_sink, h.sink, hslot, List.mapIdx_concat, List.append_assoc]
    rfl
  case value =>
    rw [List.length_append, List.length_singleton] at hk hlen
    by_cases hlast : k = lits.length
    · obtain rfl : j = i := Fin.ext (by omega)
      rw [storeState_readNum_self lit h0, List.getElem_concat_length hlast]
      rfl
    · have hji : j ≠ i := fun heq => by
        have hval := congrArg Fin.val heq
        omega
      rw [storeState_readNum_of_ne hji, List.getElem_append_left (by omega)]
      exact h.value k j (by omega) (by omega) hj
  case marks =>
    have hmark := h.marks j hj0
    have hlt := j.isLt
    rw [storeState_numWritten, List.length_append, List.length_singleton]
    by_cases hji : j = i
    · subst hji
      simp only [if_true, true_iff]
      right
      omega
    · have hne : j.val ≠ i.val := fun heq => hji (Fin.ext heq)
      have hle : j.val ≤ lits.length ↔ j.val ≤ lits.length + 1 := by omega
      rw [if_neg hji, hmark, hle]

/-- Settles O16: by induction on the STOREs, the last one first. -/
theorem storesWrapAroundTheNumberBank : Obligations.StoresWrapAroundTheNumberBank := by
  intro lits s hwn
  suffices h : ∃ t, execAll (lits.map Instr.store) s = .next t ∧ StoredFrom s lits t by
    obtain ⟨t, hrun, hwn', hsink, hvalue, hmarks⟩ := h
    exact ⟨t, hrun, hwn', hsink, hvalue, hmarks⟩
  induction lits using List.reverseRecOn with
  | nil => exact ⟨s, rfl, storedFrom_nil hwn⟩
  | append_singleton lits lit ih =>
    obtain ⟨t, hrun, hst⟩ := ih
    obtain ⟨u, hexec, hst'⟩ := hst.store lit
    exact ⟨u, by rw [List.map_append]; exact execAll_concat hrun hexec, hst'⟩

/-! ### LASTHs in sequence (spec/40_register_ops.md section 4) -/

/-- The history entries behind the cursor `c` hold the values `vs`, the one before it first, and are written. -/
def HeldBehind (c : BitVec 4) (vs : List Word) (s : State) : Prop :=
  ∀ (m : Nat) (h : m < vs.length) (j : Fin 10), (j.val + m + 1) % 10 = c.toNat % 10 →
    s.hist[j] = vs[m] ∧ s.histWritten[j] = true

theorem heldBehind_nil (c : BitVec 4) (s : State) : HeldBehind c [] s :=
  fun _ h => absurd h (Nat.not_lt_zero _)

/-- A recorded result is the first value behind the cursor after it; up to nine earlier ones follow it. -/
theorem heldBehind_arithState {vs : List Word} {s : State} {k : Fin 10} (hk : s.wh.toNat = k.val)
    (hlen : vs.length < 10) (h : HeldBehind s.wh vs s) (op : AluOp) (a b : Fin 22) :
    HeldBehind (advanceWh s.wh) (aluResult op (s.readNum a) (s.readNum b) :: vs) (arithState op a b k s) := by
  intro m hm j hj
  rw [advanceWh_toNat] at hj
  rw [arithState_hist, arithState_histWritten]
  cases m with
  | zero =>
    have hjk : j = k := Fin.ext (by omega)
    rw [if_pos hjk, if_pos hjk]
    exact ⟨rfl, rfl⟩
  | succ m =>
    rw [List.length_cons] at hm
    have hjk : j ≠ k := fun heq => by
      have hval := congrArg Fin.val heq
      omega
    rw [if_neg hjk, if_neg hjk]
    exact h m (by omega) j (by omega)

/-- As many LASTHs as values behind the read cursor report them in order and read no unwritten entry. -/
theorem execAll_lasth {vs : List Word} {s : State} (h : HeldBehind s.rh vs s) :
    ∃ u, execAll (List.replicate vs.length .lasth) s = .next u ∧ u.sink = s.sink ++ vs.map .lastValue ∧
      u.unwrittenRead = s.unwrittenRead := by
  induction vs generalizing s with
  | nil => exact ⟨s, rfl, (List.append_nil _).symm, rfl⟩
  | cons v vs ih =>
    have hrh := lasthState_rh s
    obtain ⟨hval, hw⟩ := h 0 (Nat.zero_lt_succ _) (prevEntry s.rh) (by rw [prevEntry_val]; omega)
    have htail : HeldBehind (lasthState s).rh vs (lasthState s) := fun m hm j hj => by
      simpa using h (m + 1) (Nat.succ_lt_succ hm) j (by omega)
    obtain ⟨u, hrun, hsink, hun⟩ := ih htail
    refine ⟨u, (execAll_cons (exec_lasth s).1).trans hrun, ?_, ?_⟩
    · rw [hsink, lasthState_sink, hval, List.append_assoc]
      rfl
    · rw [hun, lasthState_unwrittenRead, if_pos hw]

/-- Arithmetic instructions with sources in range complete, and their results stand behind the read cursor, the last
one first. -/
theorem execAll_arith {is : List Instr} {s : State} {vs : List Word} (his : ∀ i ∈ is, writesHistory i = true)
    (hwh : s.wh.toNat ≤ 9) (hlen : vs.length + is.length ≤ 10) (hsync : vs = [] ∨ s.rh = s.wh)
    (hvs : HeldBehind s.rh vs s) :
    ∃ (t : State) (rs : List (Word × Bool)), execAll is s = .next t ∧ rs.length = is.length ∧
      t.sink = s.sink ++ rs.map (fun r => .result r.1 r.2) ∧ HeldBehind t.rh (rs.reverse.map Prod.fst ++ vs) t := by
  induction is generalizing s vs with
  | nil => exact ⟨s, [], rfl, rfl, (List.append_nil _).symm, hvs⟩
  | cons i is ih =>
    rw [List.forall_mem_cons] at his
    rw [List.length_cons] at hlen
    obtain ⟨hi, his⟩ := his
    obtain ⟨op, f1, f2, hp⟩ := exists_arithParts (isArith_of_writesHistory hi)
    obtain ⟨h1, h2⟩ := of_decide_eq_true ((writesHistory_of_arithParts hp).symm.trans hi)
    obtain ⟨a, ha⟩ : ∃ a : Fin 22, decaddr f1 = a.val := ⟨⟨decaddr f1, by omega⟩, rfl⟩
    obtain ⟨b, hb⟩ : ∃ b : Fin 22, decaddr f2 = b.val := ⟨⟨decaddr f2, by omega⟩, rfl⟩
    obtain ⟨k, -, hk⟩ := histSlot_legal hwh
    have hexec : exec i s = .next (arithState op a b k s) := (exec_of_arithParts hp s).trans (arith_eq ha hb hk.symm)
    have hheld : HeldBehind s.wh vs s := by
      obtain rfl | hrh := hsync
      · exact heldBehind_nil _ _
      · exact hrh ▸ hvs
    have hheld' := heldBehind_arithState hk.symm (by omega) hheld op a b
    obtain ⟨t, rs, hrun, hrs, hsink, hheld''⟩ :=
      ih (s := arithState op a b k s) his (advanceWh_legal s.wh) (by rw [List.length_cons]; omega) (.inr rfl) hheld'
    refine ⟨t, (aluResult op (s.readNum a) (s.readNum b), divzOf op (s.readNum b)) :: rs,
      (execAll_cons hexec).trans hrun, by rw [List.length_cons, List.length_cons, hrs], ?_, ?_⟩
    · rw [hsink, arithState_sink, List.append_assoc]
      rfl
    · simpa using hheld''

/-- Settles O20: the results stand behind the read cursor in reverse order, and LASTHs report what stands there. -/
theorem historyReadsInReverseOrder : Obligations.HistoryReadsInReverseOrder := by
  intro is s hlen his hwh
  obtain ⟨t, rs, hrun, hrs, hsink, hheld⟩ :=
    execAll_arith his hwh (by simpa using hlen) (.inl rfl) (heldBehind_nil s.rh s)
  rw [List.append_nil] at hheld
  obtain ⟨u, hrun', hsink', hun⟩ := execAll_lasth hheld
  rw [List.length_map, List.length_reverse, hrs] at hrun'
  rw [List.map_map] at hsink'
  exact ⟨t, u, rs, hrun, hrun', hrs, hsink, hsink', hun⟩

/-- Any number of LASTHs move the read cursor back round the ten entries and keep the history bank. -/
theorem execAll_replicate_lasth (n : Nat) (s : State) :
    ∃ u, execAll (List.replicate n .lasth) s = .next u ∧ u.hist = s.hist ∧
      u.rh.toNat % 10 = (s.rh.toNat + 9 * n) % 10 ∧ (s.rh.toNat ≤ 9 → u.rh.toNat ≤ 9) := by
  induction n generalizing s with
  | zero => exact ⟨s, rfl, rfl, rfl, id⟩
  | succ n ih =>
    have hrh := lasthState_rh s
    obtain ⟨u, hrun, hhist, hpos, hlegal⟩ := ih (lasthState s)
    exact ⟨u, (execAll_cons (exec_lasth s).1).trans hrun, hhist.trans (lasthState_hist s), by omega,
      fun _ => hlegal (by omega)⟩

/-- Settles O21: ten moves back by one return a legal cursor to its place. -/
theorem eleventhReadRepeatsTheFirst : Obligations.EleventhReadRepeatsTheFirst := by
  intro s hs
  obtain ⟨u, hrun, hhist, hpos, hlegal⟩ := execAll_replicate_lasth 10 s
  have hlegal' := hlegal hs
  have hrh : u.rh = s.rh := BitVec.eq_of_toNat_eq (by omega)
  refine ⟨_, u, _, execLasth_eq s, hrun, execLasth_eq u, hrh, hhist, ?_⟩
  simp only [lasthState_out, hrh, hhist]

/-! ### When a LASTH finds a written entry (spec/70_reset_and_hazards.md section 2) -/

/-- With legal cursors every instruction completes. -/
theorem exec_exists_next {s : State} (hs : s.CursorsLegal) (i : Instr) : ∃ t, exec i s = .next t := by
  obtain ⟨hlow, hhigh, hwh, -⟩ := hs
  obtain ⟨lit, -, he⟩ | ⟨-, he⟩ | ⟨op, f1, f2, -, he⟩ := exec_cases i s
  · obtain ⟨k, -, -, hk⟩ | ⟨hbad, -⟩ := execStore_cases lit s
    · exact ⟨_, he.trans hk⟩
    · exact absurd ⟨hlow, hhigh⟩ hbad
  · exact ⟨_, he⟩
  · obtain ⟨-, ha⟩ | ⟨-, -, ha⟩ | ⟨-, -, hbad, -⟩ | ⟨a, b, k, -, -, -, ha⟩ := arith_cases op f1 f2 s
    · exact ⟨_, he.trans ha⟩
    · exact ⟨_, he.trans ha⟩
    · omega
    · exact ⟨_, he.trans ha⟩

/-- A block after `h` history writes and, since the last of them, `m` LASTHs: the read cursor is `m` places behind `wh`,
and the written entries are the `h` ones behind `wh`. Where no unwritten read is recorded, no LASTH went past them. -/
structure HistoryTracked (h m : Nat) (s : State) : Prop where
  legal : s.CursorsLegal
  behind : (s.rh.toNat + m) % 10 = s.wh.toNat
  written : ∀ j : Fin 10, s.histWritten[j] = true ↔ (s.wh.toNat + 9 - j.val) % 10 < h
  clean : s.Clean → 10 ≤ h ∨ m ≤ h

section
variable {h m : Nat} {s : State}

/-- The entry the next LASTH reads is written exactly when `m`, counted round the ten entries, is below `h`. -/
theorem HistoryTracked.prevEntry_written (ht : HistoryTracked h m s) :
    s.histWritten[prevEntry s.rh] = true ↔ m % 10 + 1 ≤ h := by
  have hbehind := ht.behind
  obtain ⟨-, -, hwh, hrh⟩ := ht.legal
  rw [ht.written, prevEntry_val]
  omega

/-- In a clean state no LASTH went round the ten entries to an entry not yet written again. -/
theorem HistoryTracked.prevEntry_written_of_clean (ht : HistoryTracked h m s) (hc : s.Clean) :
    s.histWritten[prevEntry s.rh] = true ↔ 10 ≤ h ∨ m + 1 ≤ h := by
  have hbound := ht.clean hc
  rw [ht.prevEntry_written]
  omega

/-- A LASTH counts one more. -/
theorem HistoryTracked.lasth (ht : HistoryTracked h m s) : HistoryTracked h (m + 1) (lasthState s) where
  legal := exec_keeps_cursorsLegal ht.legal (exec_lasth s).1
  behind := by
    have hbehind := ht.behind
    rw [lasthState_rh, lasthState_wh]
    omega
  written := by simpa using ht.written
  clean := fun hc => by
    obtain ⟨hclean, hw⟩ := lasthState_clean_iff.1 hc
    exact (ht.prevEntry_written_of_clean hclean).1 hw

/-- A recorded result counts as a history write and starts the LASTHs anew. -/
theorem HistoryTracked.arith (ht : HistoryTracked h m s) {ins : Instr} {op : AluOp} {a b : Fin 22} {k : Fin 10}
    (hk : s.wh.toNat = k.val) (hexec : exec ins s = .next (arithState op a b k s)) :
    HistoryTracked (h + 1) 0 (arithState op a b k s) where
  legal := exec_keeps_cursorsLegal ht.legal hexec
  behind := by
    have hadv := advanceWh_legal s.wh
    rw [arithState_rh, arithState_wh]
    omega
  written := fun j => by
    have hw := ht.written j
    rw [arithState_histWritten, arithState_wh, advanceWh_toNat]
    by_cases hj : j = k
    · subst hj
      exact iff_of_true (if_pos rfl) (by omega)
    · have hne : j.val ≠ k.val := fun heq => hj (Fin.ext heq)
      rw [if_neg hj, hw]
      omega
  clean := fun _ => .inr (Nat.zero_le _)

/-- What leaves the history bank, its cursors and the record leaves the counts. -/
theorem HistoryTracked.congr (ht : HistoryTracked h m s) {t : State} (hlegal : t.CursorsLegal) (hrh : t.rh = s.rh)
    (hwh : t.wh = s.wh) (hmarks : t.histWritten = s.histWritten) (hun : t.unwrittenRead = s.unwrittenRead) :
    HistoryTracked h m t where
  legal := hlegal
  behind := by rw [hrh, hwh]; exact ht.behind
  written := by rw [hwh, hmarks]; exact ht.written
  clean := by rw [State.Clean, hun]; exact ht.clean

/-- Every instruction keeps the counts, as `historyWrites` and `lasthCount` count it. -/
theorem HistoryTracked.exec (ht : HistoryTracked h m s) {i : Instr} {t : State} (hexec : exec i s = .next t) :
    HistoryTracked (h + historyWrites [i]) (lasthCount m [i]) t := by
  have hlegal := exec_keeps_cursorsLegal ht.legal hexec
  obtain ⟨lit, k, rfl, -, -, rfl⟩ | ⟨rfl, rfl⟩ | ⟨op, f1, f2, src, f, hp, hf, hlt, rfl⟩ |
    ⟨op, f1, f2, a, b, k, hp, ha, hb, hk, rfl⟩ := exec_next hexec
  · exact ht.congr hlegal rfl rfl rfl rfl
  · exact ht.lasth
  · have hw : writesHistory i = false := by
      rw [writesHistory_of_arithParts hp]
      obtain rfl | rfl := hf <;> exact decide_eq_false (by omega)
    have hi : i ≠ .lasth := by rintro rfl; cases hp
    simpa [historyWrites, lasthCount, hw, hi] using ht.congr hlegal rfl rfl rfl rfl
  · have hw : writesHistory i = true := by
      rw [writesHistory_of_arithParts hp]
      exact decide_eq_true (by omega)
    simpa [historyWrites, lasthCount, hw] using ht.arith hk hexec

end

/-- Any sequence completes and keeps the counts. -/
theorem HistoryTracked.execAll {h m : Nat} {s : State} (ht : HistoryTracked h m s) (is : List Instr) :
    ∃ t, execAll is s = .next t ∧ HistoryTracked (h + historyWrites is) (lasthCount m is) t := by
  induction is generalizing h m s with
  | nil => exact ⟨s, rfl, ht⟩
  | cons i is ih =>
    obtain ⟨t, hexec⟩ := exec_exists_next ht.legal i
    obtain ⟨u, hrun, hu⟩ := ih (ht.exec hexec)
    refine ⟨u, (execAll_cons hexec).trans hrun, ?_⟩
    rw [Nat.add_assoc, historyWrites, historyWrites, ← List.countP_append] at hu
    exact hu

/-- Settles O22: the counts start at 0 and 0 and every instruction keeps them. -/
theorem lasthFindsAWrittenEntryExactlyWhen : Obligations.LasthFindsAWrittenEntryExactlyWhen := by
  intro is s hlegal hrh hunwritten _
  have hstart : HistoryTracked 0 0 s :=
    { legal := hlegal
      behind := by
        obtain ⟨-, -, hwh, -⟩ := hlegal
        rw [hrh]
        omega
      written := fun j => by simp [hunwritten j]
      clean := fun _ => .inr (Nat.le_refl 0) }
  obtain ⟨t, hrun, ht⟩ := hstart.execAll is
  rw [Nat.zero_add] at ht
  refine ⟨t, hrun, fun j hj => ?_⟩
  obtain rfl : j = prevEntry t.rh := Fin.ext hj
  exact ⟨ht.prevEntry_written, ht.prevEntry_written_of_clean⟩

end Sys2Proof.Machine

/-! PROOFS, family other: the step, its statuses and the outputs (spec/60_exceptions.md sections 1, 2 and 4;
spec/70_reset_and_hazards.md section 1; spec/20_memory.md section 3). -/

namespace Sys2Proof.Machine

/-! ### Steps of each kind -/

/-- Settles O34: the ports run the instruction. -/
theorem stepRunsTheDecodedInstruction : Obligations.StepRunsTheDecodedInstruction :=
  fun _ _ _ _ hs hrst hvalid hlen hdecode => step_runs hs ⟨⟨hrst, hvalid⟩, hlen, hdecode⟩

/-- Settles O35: the step only reports LEN_ERR, and the framer's indication is false at any other length. -/
theorem wrongLengthIsReported : Obligations.WrongLengthIsReported := by
  refine ⟨fun s p rest hs hrst hvalid hlen => ?step, rfl, fun bits hbits => ⟨⟨rfl, rfl⟩, beq_false_of_ne hbits⟩⟩
  case step =>
    obtain ⟨t, hstep, hblock, hreports, hinput, hports⟩ := step_report_effect (step_lenErr hs ⟨hrst, hvalid⟩ hlen)
    exact ⟨t, hstep, hblock, hreports, hinput, congrArg OutPorts.kind hports⟩

/-- Settles O44: the fields of `State.reset`. -/
theorem resetStateHasResetValues : Obligations.ResetStateHasResetValues := by
  unfold Obligations.ResetStateHasResetValues
  decide

/-- Settles O43: a step with `rst` loads the fields of `State.reset`, with the ports consumed and the sink kept. -/
theorem resetPortLoadsResetValues : Obligations.ResetPortLoadsResetValues := by
  intro s p rest hs hrst
  obtain ⟨hwn, hwh, hrh, hnum, hhist, hzero, hclean, hout⟩ := resetStateHasResetValues
  exact ⟨_, step_rst hs hrst, hwn, hwh, hrh, hnum, hhist, hzero, hclean, hout, rfl, rfl⟩

/-- Settles O45: in both cases the step is quiet. -/
theorem nothingPresentedNothingChanges : Obligations.NothingPresentedNothingChanges := by
  rintro s (hs | ⟨p, rest, hs, hrst, hvalid⟩)
  · exact ⟨_, step_nil hs, by simp [SameBlock], rfl, rfl, by simp [hs], rfl, rfl⟩
  · exact ⟨_, step_idle hs hrst hvalid, by simp [SameBlock], rfl, rfl, by simp [hs], rfl, rfl⟩

/-! ### What a step does, by the ports it consumed -/

/-- An instruction that completes emits one status and leaves the input; where the status is a diagnostic, it changed no
block. -/
theorem exec_reports {i : Instr} {s t : State} (h : exec i s = .next t) :
    ∃ r, Reports s t r ∧ t.input = s.input ∧ (r.isDiagnostic = true → SameBlock s t) := by
  obtain ⟨lit, k, -, -, -, rfl⟩ | ⟨-, rfl⟩ | ⟨-, -, -, src, f, -, -, -, rfl⟩ | ⟨op, -, -, a, b, k, -, -, -, -, rfl⟩ :=
    exec_next h
  · exact ⟨_, ⟨rfl, rfl⟩, rfl, fun hd => by cases hd⟩
  · exact ⟨_, ⟨lasthState_out s, lasthState_sink s⟩, lasthState_input s, fun hd => by cases hd⟩
  · exact ⟨_, ⟨rfl, rfl⟩, rfl, fun _ => (report_effect s _).1⟩
  · exact ⟨_, ⟨rfl, arithState_sink op a b k s⟩, arithState_input op a b k s, fun hd => by cases hd⟩

/-- `step_next` where the ports are known. -/
theorem step_next_cons {s t : State} {p : InPorts} {rest : List InPorts} (hs : s.input = p :: rest)
    (h : step s = .next t) :
    (p.rst = true ∧ t = { s with input := rest }.applyReset) ∨
      (p.rst = false ∧ p.valid = false ∧ t = { s with input := rest }.quiet) ∨
      (p.Submits ∧ ∃ r : Status, r.isDiagnostic = true ∧ (p.lenOk = true → ∀ i, decode p.word ≠ .instr i) ∧
        t = { s with input := rest }.report r) ∨
      ∃ i, p.Runs i ∧ exec i { s with input := rest } = .next t := by
  obtain ⟨hnil, -⟩ | ⟨p', rest', hs', hcases⟩ := step_next h
  · simp [hs] at hnil
  · obtain ⟨rfl, rfl⟩ := List.cons.inj (hs.symm.trans hs')
    exact hcases

/-- Settles O39: a diagnostic is one report, and every instruction reports once. -/
theorem oneStatusPerSubmission : Obligations.OneStatusPerSubmission := by
  intro s t p rest hs hrst hvalid h
  obtain ⟨hr, -⟩ | ⟨-, hv, -⟩ | ⟨-, r, -, -, rfl⟩ | ⟨i, -, hexec⟩ := step_next_cons hs h
  · simp [hrst] at hr
  · simp [hvalid] at hv
  · exact ⟨r, ⟨rfl, rfl⟩, rfl⟩
  · obtain ⟨r, hreports, hinput, -⟩ := exec_reports hexec
    exact ⟨r, hreports, hinput⟩

/-- Settles O40: a step that shows a diagnostic only reported it. -/
theorem diagnosticsChangeNoState : Obligations.DiagnosticsChangeNoState := by
  intro s t p rest r hs h hout hdiag
  obtain ⟨-, rfl⟩ | ⟨-, -, rfl⟩ | ⟨-, r', -, -, rfl⟩ | ⟨i, -, hexec⟩ := step_next_cons hs h
  · cases hout
  · cases hout
  · exact ⟨(report_effect { s with input := rest } r').1, rfl⟩
  · obtain ⟨r', ⟨hout', -⟩, hinput, hblock⟩ := exec_reports hexec
    obtain rfl : r' = r := Option.some.inj (hout'.symm.trans hout)
    exact ⟨hblock hdiag, hinput⟩

/-- Only STORE changes the number bank, its marks or its cursor, and only an instruction that writes the history bank
changes that bank's marks. -/
theorem exec_keeps_banks {i : Instr} {s t : State} (h : exec i s = .next t) :
    ((∃ lit, i = .store lit) ∨ t.num = s.num ∧ t.numWritten = s.numWritten ∧ t.wn = s.wn) ∧
      (writesHistory i = true ∨ t.histWritten = s.histWritten) := by
  obtain ⟨lit, k, rfl, -, -, rfl⟩ | ⟨rfl, rfl⟩ | ⟨op, f1, f2, src, f, -, -, -, rfl⟩ |
    ⟨op, f1, f2, a, b, k, hp, ha, hb, -, rfl⟩ := exec_next h
  · exact ⟨.inl ⟨lit, rfl⟩, .inr rfl⟩
  · exact ⟨.inr ⟨lasthState_num s, lasthState_numWritten s, lasthState_wn s⟩, .inr (lasthState_histWritten s)⟩
  · exact ⟨.inr ⟨rfl, rfl, rfl⟩, .inr rfl⟩
  · have hin : decaddr f1 ≤ 21 ∧ decaddr f2 ≤ 21 := by omega
    exact ⟨.inr ⟨arithState_num op a b k s, arithState_numWritten op a b k s, arithState_wn op a b k s⟩,
      .inl ((writesHistory_of_arithParts hp).trans (decide_eq_true hin))⟩

/-- The same of a step without reset. -/
theorem step_keeps_banks {s t : State} {p : InPorts} {rest : List InPorts} (hs : s.input = p :: rest)
    (hr : p.rst = false) (h : step s = .next t) :
    ((∃ lit, p.Runs (.store lit)) ∨ t.num = s.num ∧ t.numWritten = s.numWritten ∧ t.wn = s.wn) ∧
      ((∃ i, writesHistory i = true ∧ p.Runs i) ∨ t.histWritten = s.histWritten) := by
  obtain ⟨hrst, -⟩ | ⟨-, -, rfl⟩ | ⟨-, r, -, -, rfl⟩ | ⟨i, hi, hexec⟩ := step_next_cons hs h
  · simp [hr] at hrst
  · exact ⟨.inr ⟨rfl, rfl, rfl⟩, .inr rfl⟩
  · exact ⟨.inr ⟨rfl, rfl, rfl⟩, .inr rfl⟩
  · obtain ⟨hnum, hmarks⟩ := exec_keeps_banks hexec
    exact ⟨hnum.imp_left fun ⟨lit, hlit⟩ => ⟨lit, hlit ▸ hi⟩, hmarks.imp_left fun hw => ⟨i, hw, hi⟩⟩

/-- Settles O41: where no such instruction ran, each of the fields is the same. -/
theorem onlyTheirInstructionsWriteEachBank : Obligations.OnlyTheirInstructionsWriteEachBank := by
  intro s t p rest hs hr h
  obtain ⟨hnum, hmarks⟩ := step_keeps_banks hs hr h
  refine ⟨fun hne => ?number, ?history⟩
  case number =>
    obtain hstore | ⟨hnum, hmarks, hwn⟩ := hnum
    · exact hstore
    · exact absurd hne (by simp [hnum, hmarks, hwn])
  case history =>
    obtain ⟨hruns, -⟩ | ⟨-, hhist, hwh, hrh⟩ := step_history hs hr h
    · exact ⟨fun _ => hruns, fun _ => .inr hruns⟩
    · refine ⟨fun hne => ?_, fun hne => .inl (hrh hne)⟩
      obtain hruns | hsame := hmarks
      · exact hruns
      · exact absurd hne (by simp [hhist, hwh, hsame])

/-! ### Which status a submission gets (spec/60_exceptions.md R150) -/

/-- Only DIV sets `divz`. -/
theorem eq_div_of_divzOf {op : AluOp} {y : Word} (h : divzOf op y = true) : op = .div := by
  cases op with
  | add | sub | mul => cases h
  | div => rfl

/-- A word under the arithmetic opcode with a legal function code decodes to an instruction with its two fields, whose
operation is DIV only under DIV's function code. -/
theorem decode_function {w : BitVec 32} (ho : opcOf w = opcArith)
    (hf : fnOf w = fnAdd ∨ fnOf w = fnSub ∨ fnOf w = fnMul ∨ fnOf w = fnDiv) :
    ∃ ins op, decode w = .instr ins ∧ arithParts ins = some (op, f1Of w, f2Of w) ∧ (op = .div → fnOf w = fnDiv) := by
  rw [decode_arith ho]
  split_ifs with hadd hsub hmul hdiv
  · exact ⟨_, .add, rfl, rfl, fun h => by cases h⟩
  · exact ⟨_, .sub, rfl, rfl, fun h => by cases h⟩
  · exact ⟨_, .mul, rfl, rfl, fun h => by cases h⟩
  · exact ⟨_, .div, rfl, rfl, fun _ => hdiv⟩
  · simp [hadd, hsub, hmul, hdiv] at hf

/-- Any other function code is illegal. -/
theorem decode_badFunction_of_not {w : BitVec 32} (ho : opcOf w = opcArith)
    (hf : ¬(fnOf w = fnAdd ∨ fnOf w = fnSub ∨ fnOf w = fnMul ∨ fnOf w = fnDiv)) : decode w = .badFunction := by
  obtain ⟨hadd, hsub, hmul, hdiv⟩ : fnOf w ≠ fnAdd ∧ fnOf w ≠ fnSub ∧ fnOf w ≠ fnMul ∧ fnOf w ≠ fnDiv := by
    simpa only [not_or] using hf
  exact decode_badFunction ho hadd hsub hmul hdiv

/-- Settles O38: one case of the validation order after the other. -/
theorem firstMatchDecidesTheStatus : Obligations.FirstMatchDecidesTheStatus := by
  intro s p rest hs hrst hvalid hlow hhigh hwh
  have hp : p.Submits := ⟨hrst, hvalid⟩
  split_ifs with hl hstore hlasth harith hfn h1 h2
  · exact ⟨_, _, step_lenErr hs hp hl, ⟨rfl, rfl⟩, rfl⟩
  all_goals rw [Bool.not_eq_false] at hl
  · obtain ⟨k, -, hk, h0⟩ := numSlot_legal ⟨hlow, hhigh⟩
    exact ⟨_, _, (step_runs hs ⟨hp, hl, decode_store hstore⟩).trans (execStore_eq hk.symm h0), ⟨rfl, rfl⟩, rfl⟩
  · have hstep := (step_runs hs ⟨hp, hl, decode_lasth hlasth⟩).trans (exec_lasth _).1
    exact ⟨_, _, hstep, (exec_lasth _).2.2, _, rfl⟩
  · exact ⟨_, _, step_opcErr hs hp hl (decode_badOpcode hstore hlasth harith), ⟨rfl, rfl⟩, rfl⟩
  rotate_right
  · exact ⟨_, _, step_functErr hs hp hl (decode_badFunction_of_not (not_not.1 harith) hfn), ⟨rfl, rfl⟩, rfl⟩
  all_goals
    obtain ⟨ins, op, hdecode, hparts, hdiv⟩ := decode_function (not_not.1 harith) hfn
    have hstep := (step_runs hs ⟨hp, hl, hdecode⟩).trans (exec_of_arithParts hparts _)
  · exact ⟨_, _, hstep.trans (arith_source_one h1), (report_effect _ _).2, rfl⟩
  · exact ⟨_, _, hstep.trans (arith_source_two (by omega) h2), (report_effect _ _).2, rfl⟩
  · have hrun := hstep.trans (arith_eq (i := ⟨decaddr (f1Of p.word), by omega⟩)
      (j := ⟨decaddr (f2Of p.word), by omega⟩) (k := ⟨s.wh.toNat, by omega⟩) rfl rfl rfl)
    exact ⟨_, _, hrun, ⟨rfl, arithState_sink ..⟩, _, _, rfl, fun hz => hdiv (eq_div_of_divzOf hz)⟩

end Sys2Proof.Machine

/-! PROOFS, family other: runs of the machine, the record of unwritten reads and the model fault (spec/20_memory.md
section 3; spec/60_exceptions.md sections 1, 2 and 4). -/

namespace Sys2Proof.Machine

/-! ### A sequence presented one word a step (spec/20_memory.md R57) -/

/-- The same state with other values waiting on the input ports. -/
def State.withInput (l : List InPorts) (s : State) : State := { s with input := l }

@[simp] theorem State.withInput_input (l : List InPorts) (s : State) : (s.withInput l).input = l := rfl

/-- A state that waits for `l` is itself with `l` waiting. -/
theorem State.withInput_eq_self {l : List InPorts} {s : State} (h : s.input = l) : s.withInput l = s := by
  subst h
  rfl

theorem noteNumRead_withInput (l : List InPorts) (s : State) (i : Fin 22) :
    (s.withInput l).noteNumRead i = (s.noteNumRead i).withInput l := by
  rw [State.noteNumRead, State.noteNumRead, apply_ite (State.withInput l)]
  rfl

theorem noteHistRead_withInput (l : List InPorts) (s : State) (j : Fin 10) :
    (s.withInput l).noteHistRead j = (s.noteHistRead j).withInput l := by
  rw [State.noteHistRead, State.noteHistRead, apply_ite (State.withInput l)]
  rfl

/-- The two states differ at most in what waits on the input ports. -/
def SameButInput (l : List InPorts) (s s' : State) : Prop := s' = s.withInput l

/-- No instruction looks at the input ports. -/
theorem sameButInput_execClosed (l : List InPorts) : ExecClosed (SameButInput l) where
  report := by rintro s _ r rfl; rfl
  wn := by rintro s _ rfl; rfl
  store := by rintro s _ lit i - rfl; rfl
  lasth := by
    rintro s _ rfl
    rw [SameButInput, lasthState, State.stepBack, noteHistRead_withInput]
    rfl
  wh := by rintro s _ rfl -; rfl
  arith := by
    rintro s _ op f1 f2 a b k - - hk rfl
    refine ⟨k, hk, ?_⟩
    rw [SameButInput, arithState, noteNumRead_withInput, noteNumRead_withInput]
    rfl

/-- Related outcomes are of the same kind. -/
theorem OutcomeRel.cases {R : State → State → Prop} {o o' : Host.Outcome State Fault Refusal} (h : OutcomeRel R o o') :
    (∃ t t', o = .next t ∧ o' = .next t' ∧ R t t') ∨ (∃ f, o = .fault f ∧ o' = .fault f) ∨
      ∃ q, o = .refused q ∧ o' = .refused q := by
  cases o with
  | next t =>
    cases o' with
    | next t' => exact .inl ⟨t, t', rfl, rfl, h⟩
    | fault | refused => cases h
  | fault f =>
    cases o' with
    | fault f' => exact .inr (.inl ⟨f, rfl, congrArg _ (Eq.symm h)⟩)
    | next | refused => cases h
  | refused q =>
    cases o' with
    | refused q' => exact .inr (.inr ⟨q, rfl, congrArg _ (Eq.symm h)⟩)
    | next | fault => cases h

/-- A step on the word of an instruction is that instruction, with the words behind it waiting. -/
theorem step_present_encode (i : Instr) (l : List InPorts) (s : State) :
    step (s.withInput (present (encode i) :: l)) = exec i (s.withInput l) :=
  step_runs rfl ⟨⟨rfl, rfl⟩, rfl, decodeOfEncode i⟩

/-- By induction on the sequence: no instruction looks at the words that wait behind it. -/
theorem core_run_present (is : List Instr) (s : State) (rest : List InPorts) :
    Sys2Proof.core.run is.length (s.withInput (is.map (fun i => present (encode i)) ++ rest)) =
      execAll is (s.withInput rest) := by
  induction is generalizing s with
  | nil => rfl
  | cons i is ih =>
    rw [List.length_cons, List.map_cons, List.cons_append, core_run_succ, step_present_encode, execAll]
    have hrel : OutcomeRel (SameButInput rest) (exec i (s.withInput (is.map (fun i => present (encode i)) ++ rest)))
        (exec i (s.withInput rest)) := (sameButInput_execClosed rest).exec_rel rfl i
    obtain ⟨t, _, ht, ht', rfl⟩ | ⟨f, hf, hf'⟩ | ⟨q, hq, hq'⟩ := hrel.cases
    · obtain ⟨-, -, hinput, -⟩ := exec_reports ht
      rw [State.withInput_input] at hinput
      have hrun := ih t
      rw [State.withInput_eq_self hinput] at hrun
      rw [ht, ht']
      exact hrun
    · rw [hf, hf']
      rfl
    · rw [hq, hq']
      rfl

/-- Settles O46: `core_run_present` with the ports of the state written out. -/
theorem stepsRunTheSequence : Obligations.StepsRunTheSequence := core_run_present

/-! ### The outputs (spec/60_exceptions.md R140, R141, R155) -/

/-- Settles O47: the ports of each kind, and every decoded index is below 2^14. -/
theorem outputPortsOfEachStatus : Obligations.OutputPortsOfEachStatus := by
  refine ⟨rfl, fun _ _ => rfl, fun _ => rfl, rfl, rfl, fun _ _ => rfl, fun _ => rfl, fun _ => rfl, fun f => ?_⟩
  have hf := decaddr_le f
  rw [BitVec.toNat_ofNat]
  omega

/-- A value's text is a sign exactly when it is negative, and the digits of its magnitude. -/
theorem decimalText_eq (v : Word) :
    decimalText v = (if v.toInt < 0 then "-" else "") ++ String.ofList (Nat.toDigits 10 v.toInt.natAbs) := by
  rw [decimalText]
  cases v.toInt with
  | ofNat n =>
    rw [if_neg (show ¬Int.ofNat n < 0 from (Int.natCast_nonneg n).not_gt), String.empty_append]
    rfl
  | negSucc n =>
    rw [if_pos (Int.negSucc_lt_zero n)]
    rfl

/-- Settles O48: the lines of each kind, and the text of a value by its sign. -/
theorem linesOfEachStatus : Obligations.LinesOfEachStatus := by
  have hzero : "Calculated Result: " ++ decimalText 0#32 = "Calculated Result: 0" := by decide
  exact ⟨rfl, fun _ _ => rfl, fun _ => rfl, rfl, rfl, fun _ => rfl, fun _ => rfl, fun _ _ => rfl, decimalText_eq,
    by decide, by decide, congrArg (fun line => [Config.divzText, line]) hzero, by decide⟩

/-! ### The record of unwritten reads (spec/60_exceptions.md R149) -/

/-- An instruction keeps a record: a second unwritten read does not replace it. -/
theorem exec_keeps_unwrittenRead {i : Instr} {s t : State} {u : UnwrittenRead} (hu : s.unwrittenRead = some u)
    (h : exec i s = .next t) : t.unwrittenRead = some u := by
  obtain ⟨lit, k, -, -, -, rfl⟩ | ⟨-, rfl⟩ | ⟨-, -, -, src, f, -, -, -, rfl⟩ | ⟨op, -, -, a, b, k, -, -, -, -, rfl⟩ :=
    exec_next h
  · exact hu
  · rw [lasthState_unwrittenRead, hu]
    split <;> rfl
  · exact hu
  · rw [arithState_unwrittenRead, hu]
    split_ifs <;> rfl

/-- A step keeps a record unless it resets. -/
theorem step_keeps_unwrittenRead {s t : State} {u : UnwrittenRead} (hu : s.unwrittenRead = some u)
    (h : step s = .next t) : t.unwrittenRead = some u ∨ ∃ p rest, s.input = p :: rest ∧ p.rst = true := by
  obtain ⟨-, rfl⟩ | ⟨p, rest, hs, ⟨hr, -⟩ | ⟨-, -, rfl⟩ | ⟨-, r, -, -, rfl⟩ | ⟨i, -, hexec⟩⟩ := step_next h
  · exact .inl hu
  · exact .inr ⟨p, rest, hs, hr⟩
  · exact .inl hu
  · exact .inl hu
  · exact .inl (exec_keeps_unwrittenRead (s := { s with input := rest }) hu hexec)

/-- Settles O53: no submission clears the record. -/
theorem unwrittenReadRecordStays : Obligations.UnwrittenReadRecordStays := fun _ _ _ => step_keeps_unwrittenRead

/-! ### The step that raises the fault (spec/60_exceptions.md R149) -/

/-- With legal cursors every step completes. -/
theorem step_exists_next {s : State} (hs : s.CursorsLegal) : ∃ t, step s = .next t := by
  cases hin : s.input with
  | nil => exact ⟨_, step_nil hin⟩
  | cons p rest =>
    rw [step_cons hin, applyPorts, submit]
    split_ifs
    · exact ⟨_, rfl⟩
    · exact ⟨_, rfl⟩
    · cases decode p.word with
      | instr i => exact exec_exists_next (s := { s with input := rest }) hs i
      | badOpcode | badFunction => exact ⟨_, rfl⟩
    · exact ⟨_, rfl⟩

/-- Settles O58: a faulted state's step completes with the record kept, and a reset's state is clean. -/
theorem faultedStateIsNotFinal : Obligations.FaultedStateIsNotFinal := by
  intro s u hlegal hu
  refine ⟨fun hnorst => ?_, fun p rest hs hr => ⟨_, specStep_of_clean (step_rst hs hr) rfl, rfl⟩⟩
  obtain ⟨t, hstep⟩ := step_exists_next hlegal
  obtain hu' | ⟨p, rest, hs, hr⟩ := step_keeps_unwrittenRead hu hstep
  · exact specStep_of_unwritten hstep hu'
  · rw [hnorst p rest hs] at hr
    cases hr

/-- `specStep` is `step` where no next state of `step` holds a record. -/
theorem specStep_eq_step {s : State} (h : ∀ t, step s = .next t → t.Clean) : specStep s = step s := by
  cases hstep : step s with
  | next t => exact specStep_of_clean hstep (h t hstep)
  | fault f => exact specStep_of_fault hstep
  | refused q => rw [specStep, hstep, raiseUnwritten]

/-- An instruction that is no LASTH and writes no history entry reads no bank. -/
theorem exec_unwrittenRead_of_no_read {i : Instr} {s t : State} (h : exec i s = .next t) (hl : i ≠ .lasth)
    (hw : writesHistory i ≠ true) : t.unwrittenRead = s.unwrittenRead := by
  obtain ⟨lit, k, -, -, -, rfl⟩ | ⟨rfl, -⟩ | ⟨-, -, -, src, f, -, -, -, rfl⟩ |
    ⟨op, f1, f2, a, b, k, hp, ha, hb, -, -⟩ := exec_next h
  · rfl
  · exact absurd rfl hl
  · rfl
  · rw [writesHistory_of_arithParts hp, decide_eq_true (by omega)] at hw
    exact absurd rfl hw

/-- Settles O57: what `step` leaves in the record of a clean state is what `specStep` raises. -/
theorem unwrittenReadRaisesTheModelFault : Obligations.UnwrittenReadRaisesTheModelFault := by
  intro s p rest hs hp hwh hclean
  refine ⟨fun j hruns hj => ?lasth, fun i f1 f2 a b hruns hi h1 h2 => ?arith, fun hlasth hwrites => ?other⟩
  case lasth =>
    obtain rfl : j = prevEntry s.rh := Fin.ext hj
    have hstep : step s = .next (lasthState { s with input := rest }) := step_runs hs hruns
    split_ifs with hw
    · exact (specStep_of_clean hstep (lasthState_clean_iff.2 ⟨hclean, hw⟩)).trans hstep.symm
    · refine specStep_of_unwritten hstep ((lasthState_unwrittenRead _).trans ?_)
      rw [if_neg hw, show s.unwrittenRead = none from hclean]
      rfl
  case arith =>
    obtain ⟨op, hparts⟩ := exists_op_of_cases hi
    obtain ⟨k, hexec, -⟩ := exec_records (s := { s with input := rest }) hparts h1 h2 hwh
    have hstep := (step_runs hs hruns).trans hexec
    have hun := arithState_unwrittenRead_of_clean (s := { s with input := rest }) (op := op) (a := a) (b := b) (k := k)
      hclean
    by_cases ha : ¬s.NumReadable a
    · rw [if_pos ha]
      exact specStep_of_unwritten hstep (hun.trans (if_pos ha))
    rw [if_neg ha]
    by_cases hb : ¬s.NumReadable b
    · rw [if_pos hb]
      exact specStep_of_unwritten hstep (hun.trans ((if_neg ha).trans (if_pos hb)))
    · rw [if_neg hb]
      exact (specStep_of_clean hstep (hun.trans ((if_neg ha).trans (if_neg hb)))).trans hstep.symm
  case other =>
    refine specStep_eq_step fun t hstep => ?_
    obtain ⟨-, rfl⟩ | ⟨-, -, rfl⟩ | ⟨-, r, -, -, rfl⟩ | ⟨i, hi, hexec⟩ := step_next_cons hs hstep
    · rfl
    · exact hclean
    · exact hclean
    · have hno : i ≠ .lasth := fun heq => hlasth (heq ▸ hi)
      exact (exec_unwrittenRead_of_no_read hexec hno fun hw => hwrites ⟨i, hw, hi⟩).trans hclean

/-- An instruction stops only at an illegal write cursor (log 5). -/
theorem exec_fault_cases {i : Instr} {s : State} {f : Fault} (h : exec i s = .fault f) :
    f = .numCursorIllegal s.wn ∨ f = .histCursorIllegal s.wh := by
  obtain ⟨lit, -, he⟩ | ⟨-, he⟩ | ⟨op, f1, f2, -, he⟩ := exec_cases i s
  all_goals rw [he] at h
  · obtain ⟨k, -, -, hs⟩ | ⟨-, hs⟩ := execStore_cases lit s <;> rw [hs] at h <;> cases h
    exact .inl rfl
  · cases h
  · obtain ⟨-, ha⟩ | ⟨-, -, ha⟩ | ⟨-, -, -, ha⟩ | ⟨a, b, k, -, -, -, ha⟩ := arith_cases op f1 f2 s <;>
      rw [ha] at h <;> cases h
    exact .inr rfl

/-- The core's own step never raises UnwrittenRead. -/
theorem step_ne_unwrittenRead (s : State) (u : UnwrittenRead) : step s ≠ .fault (.unwrittenRead u) := by
  intro h
  cases hin : s.input with
  | nil =>
    rw [step_nil hin] at h
    cases h
  | cons p rest =>
    rw [step_cons hin, applyPorts, submit] at h
    split_ifs at h
    cases hd : decode p.word with
    | instr i =>
      rw [hd] at h
      obtain hf | hf := exec_fault_cases h <;> cases hf
    | badOpcode | badFunction =>
      rw [hd] at h
      cases h

/-- A step consumes at most the first of what waits on the input ports. -/
theorem step_input {s t : State} (h : step s = .next t) : t.input = s.input.tail := by
  obtain ⟨hin, rfl⟩ | ⟨p, rest, hin, ⟨-, rfl⟩ | ⟨-, -, rfl⟩ | ⟨-, r, -, -, rfl⟩ | ⟨i, -, hexec⟩⟩ := step_next h
  · rw [State.quiet_input, hin, List.tail_nil]
  · rw [hin]; rfl
  · rw [hin]; rfl
  · rw [hin]; rfl
  · obtain ⟨-, -, hinput, -⟩ := exec_reports hexec
    rw [hinput, hin]; rfl

/-- What no port value resets, no port value left after a step resets. -/
theorem step_noReset {s t : State} (hno : ∀ p ∈ s.input, p.rst = false) (h : step s = .next t) :
    ∀ p ∈ t.input, p.rst = false := fun p hp => by
  rw [step_input h] at hp
  exact hno p (List.mem_of_mem_tail hp)

/-- A completed run of the core takes a first step and goes on from there. -/
theorem core_run_succ_next {n : Nat} {s u : State} :
    Sys2Proof.core.run (n + 1) s = .next u ↔ ∃ t, step s = .next t ∧ Sys2Proof.core.run n t = .next u := by
  rw [core_run_succ]
  cases step s with
  | next t => exact ⟨fun h => ⟨t, rfl, h⟩, fun ⟨_, ht, h⟩ => by cases ht; exact h⟩
  | fault | refused => exact ⟨fun h => (by cases h), fun ⟨_, ht, _⟩ => by cases ht⟩

/-- A completed run of the machine that raises the fault takes a first step and goes on from there. -/
theorem specCore_run_succ_next {n : Nat} {s u : State} :
    specCore.run (n + 1) s = .next u ↔ ∃ t, specStep s = .next t ∧ specCore.run n t = .next u := by
  rw [specCore_run_succ]
  cases specStep s with
  | next t => exact ⟨fun h => ⟨t, rfl, h⟩, fun ⟨_, ht, h⟩ => by cases ht; exact h⟩
  | fault | refused => exact ⟨fun h => (by cases h), fun ⟨_, ht, _⟩ => by cases ht⟩

/-- A run of the core without resets keeps a record to its end, so it started clean where it ends clean. -/
theorem clean_of_core_run {n : Nat} {s t : State} (hno : ∀ p ∈ s.input, p.rst = false)
    (h : Sys2Proof.core.run n s = .next t) (hc : t.Clean) : s.Clean := by
  induction n generalizing s with
  | zero =>
    cases h
    exact hc
  | succ n ih =>
    obtain ⟨s', hstep, hrun⟩ := core_run_succ_next.1 h
    have hs' : s'.Clean := ih (step_noReset hno hstep) hrun
    cases hu : s.unwrittenRead with
    | none => exact hu
    | some u =>
      obtain hu' | ⟨p, rest, hin, hr⟩ := step_keeps_unwrittenRead hu hstep
      · exact absurd (hu'.symm.trans hs') (by simp)
      · exact absurd (hno p (by simp [hin])) (by simp [hr])

/-- Settles O59: by induction on the steps; the machines take the same step as long as the record stays empty. -/
theorem specRunsAreTheCleanRuns : Obligations.SpecRunsAreTheCleanRuns := by
  refine ⟨step_ne_unwrittenRead, fun n s t hclean => ?_⟩
  induction n generalizing s with
  | zero =>
    refine ⟨fun h => ⟨h, ?_⟩, fun _ h _ => h⟩
    cases h
    exact hclean
  | succ n ih =>
    refine ⟨fun h => ?core, fun hno h hc => ?spec⟩
    case core =>
      obtain ⟨s', hspec, hrun⟩ := specCore_run_succ_next.1 h
      obtain ⟨hstep, hclean'⟩ := raiseUnwritten_eq_next.1 hspec
      obtain ⟨hcore, hc⟩ := (ih s' hclean').1 hrun
      exact ⟨core_run_succ_next.2 ⟨s', hstep, hcore⟩, hc⟩
    case spec =>
      obtain ⟨s', hstep, hrun⟩ := core_run_succ_next.1 h
      have hno' := step_noReset hno hstep
      have hclean' := clean_of_core_run hno' hrun hc
      exact specCore_run_succ_next.2 ⟨s', specStep_of_clean hstep hclean', (ih s' hclean').2 hno' hrun hc⟩

end Sys2Proof.Machine
